-- ==== Sys2Proof/Config.lean ====
section
/-! DEFINITION. The constants the spec collects in rules R4 and R5 (`00_scope.md`), under its own names. The spec leaves no
value free (`93_implementation_defined.md`, Part 2: "nothing is `any value`"), so nothing here is opaque; the open parameters
CLOCKING, HANDSHAKE, LATENCY and RESET_SIGNAL are not taken (rule R5; log entry 9). The literals are taken as they stand, though
the spec says nobody audited them (DESIGN CHOICE, log entry 8). -/

namespace Sys2Proof.Config

/-- `MAX_WIDTH`: "Widths must be ≤ 32" (rule R4). -/
abbrev maxWidth : Nat := 32

/-- `MARKER_MAX`: static markers and dynamic cases exist for widths 1 to 24 (rule R4). -/
abbrev markerMax : Nat := 24

/-- `NATIVE_WIDTHS` (rule R4). -/
abbrev nativeWidths : List Nat := [8, 16, 32]

/-- `GROUP_BITS`: a bit-group is "a fixed 8-bit unit" (rule R4). -/
abbrev groupBits : Nat := 8

/-- `MAX_GROUPS = ceil(MAX_WIDTH / GROUP_BITS)` (rule R4). -/
abbrev maxGroups : Nat := 4

/-- `CW_BITS`: the size of a command word (rule R5). -/
abbrev cwBits : Nat := 48

end Sys2Proof.Config
end

