-- ==== Sys2Proof/Word.lean ====
section
/-! DEFINITION. The word types of the block: the value, the byte (a bit-group is one byte, spec rules R4, R10) and the
48-bit command and response word (rules R5, R45, R50). -/

namespace Sys2Proof

/-- One 8-bit group, or one byte of a byte sequence (rule R10: "a sequence of 8-bit groups"). -/
abbrev Byte := BitVec 8

/-- The unsigned 32-bit value a container is built from, and the operand `n` of DYNQ (rules R4, R5, R49). -/
abbrev Word := BitVec 32

/-- A command word `CW[47:0]` (rule R45) or a response word `RW[47:0]` (rule R50). -/
abbrev Word48 := BitVec 48

end Sys2Proof
end

