-- ==== Sys2Proof/Machine/Datapath.lean ====
section
/-! DEFINITION. The arithmetic of construction and extraction (`41_pack.md` rules R80 to R83, `42_extract.md` rules R95 to R97,
`20_memory.md` rule R43). A function that the spec defines on a part of its arguments only is `none` on the rest: "A model must
give no group sequence for `b > 32`" (rule R87). -/

namespace Sys2Proof.Machine

/-- `full(b) = b div 8` (rule R81). -/
def full (b : Nat) : Nat := b / Config.groupBits

/-- `rem(b) = b mod 8` (rule R81). -/
def rem (b : Nat) : Nat := b % Config.groupBits

/-- `ngroups(b) = full(b) + (1 if rem(b) != 0 else 0)` (rule R82). -/
def ngroups (b : Nat) : Nat := full b + (if rem b ≠ 0 then 1 else 0)

/-- `shl8(x, k) = (x * 2^k) mod 256`, the 8-bit logical left shift (rule R43 (c)). -/
def shl8 (x : Byte) (k : Nat) : Byte := x <<< k

/-- `shr8(x, k) = x div 2^k`, the 8-bit logical right shift (rule R43 (d)). -/
def shr8 (x : Byte) (k : Nat) : Byte := x >>> k

/-- `le_bytes(v)`: the four bytes of the value, the least significant first (rules R80, R30). -/
def leBytes (v : Word) : List Byte :=
  [v.extractLsb' 0 8, v.extractLsb' 8 8, v.extractLsb' 16 8, v.extractLsb' 24 8]

/-- `pack(v, b)`: the first `full` source bytes unchanged and, when `rem` is not 0, the next one shifted left by `8 - rem`
(rule R83); not defined for `b > 32` (rule R87). -/
def pack (v : Word) (b : Nat) : Option (List Byte) :=
  if b ≤ Config.maxWidth then
    let whole := (leBytes v).take (full b)
    if rem b = 0 then some whole
    else some (whole ++ (leBytes v)[full b]?.toList.map (shl8 · (8 - rem b)))
  else none

/-- `unpack_bytes(G, b)`: the first `full` groups unchanged and, when `rem` is not 0, the last one shifted right by `8 - rem`;
defined for `b <= 32` and `len(G) = ngroups(b)` (rule R95). -/
def unpackBytes (g : List Byte) (b : Nat) : Option (List Byte) :=
  if b ≤ Config.maxWidth ∧ g.length = ngroups b then
    let whole := g.take (full b)
    if rem b = 0 then some whole
    else some (whole ++ g[full b]?.toList.map (shr8 · (8 - rem b)))
  else none

/-- `first_byte(G, b)`: the first byte of `unpack_bytes(G, b)`, "or 0 if the sequence is empty" (rule R96). -/
def firstByte (g : List Byte) (b : Nat) : Option Byte :=
  (unpackBytes g b).map fun bytes => bytes.headD 0

/-- The little-endian buffer of a byte sequence: byte `k` in bits `8k+7:8k`, zero elsewhere. -/
def leBuffer : List Byte → Word
  | [] => 0
  | x :: xs => x.setWidth 32 ||| leBuffer xs <<< 8

/-- `pad4(B)`, which is also `le_value(B)`, "for a sequence `B` of 0 to 4 bytes" (rule R97). -/
def pad4 (bytes : List Byte) : Option Word :=
  if bytes.length ≤ Config.maxGroups then some (leBuffer bytes) else none

end Sys2Proof.Machine
end

