-- ==== Sys2Proof/Syntax.lean ====
section
/-! DEFINITION. The command set BFP-1 as abstract syntax: one constructor of `Instr` for each of the nine rows of
spec/opcode_table.json (rule R47), with the operands of rule R54's forms. -/

namespace Sys2Proof

/-- The four container slots `c0` to `c3` (rule R10). "all four values are legal, so no slot number can be out of range"
(rule R49). -/
inductive SlotId where
  | c0 | c1 | c2 | c3
deriving DecidableEq, Repr

/-- The class of a width tag: which realization of the width capability it stands for (rule R13). -/
inductive WidthClass where
  /-- class S: a static width marker -/
  | marker
  /-- class D: the dynamic width -/
  | dynamic
  /-- class U: a native unsigned integer type used as a width -/
  | native
  /-- class R: a width reported by any other implementer of the capability (rule R66) -/
  | raw
deriving DecidableEq, Repr

/-- A width tag `T[7:0] = {cls[1:0], q[5:0]}` (rule R13). Every one of the 256 tag values is a term of this type, ill-formed
ones included: a command can carry them, and they are checked when it executes (rule R52). -/
structure Tag where
  /-- `cls = T[7:6]` -/
  cls : WidthClass
  /-- `q = T[5:0]`, an unsigned number 0 to 63 -/
  q : BitVec 6
deriving DecidableEq, Repr

/-- The nine commands (rule R47). -/
inductive Instr where
  /-- `PACK cd, T, value` (rule R85) -/
  | pack (cd : SlotId) (t : Tag) (value : Word)
  /-- `TOBYTES cs` (rule R100) -/
  | tobytes (cs : SlotId)
  /-- `TOBYTE cs` (rule R101) -/
  | tobyte (cs : SlotId)
  /-- `TOU32 cs` (rule R102) -/
  | tou32 (cs : SlotId)
  /-- `RDGRP cs` (rule R103) -/
  | rdgrp (cs : SlotId)
  /-- `CLONE cd, cs` (rule R91) -/
  | clone (cd cs : SlotId)
  /-- `WBITS T` (rule R70) -/
  | wbits (t : Tag)
  /-- `DYNQ n` (rule R71) -/
  | dynq (n : Word)
  /-- `DYNC T` (rule R72) -/
  | dync (t : Tag)
deriving DecidableEq, Repr

end Sys2Proof
end

