-- ==== Sys2Proof/Machine/Operands.lean ====
section
/-! DEFINITION. The width-tag operand and the functions on it (`40_width.md`, rules R65 to R69): the bit count a tag reports,
whether a tag names a width that exists, and the two constructors of a dynamic width. -/

namespace Sys2Proof.Machine

/-- `bits(T) = T[5:0]`, "the quantity field q, for every class S, D, U, R" (rule R65). -/
def bits (t : Tag) : Nat := t.q.toNat

/-- `tag_ok(T)`: whether a tag names a width that exists (rule R67). -/
def tagOk (t : Tag) : Bool :=
  match t.cls with
  | .marker  => decide (1 ≤ bits t ∧ bits t ≤ Config.markerMax)
  | .dynamic => decide (1 ≤ bits t ∧ bits t ≤ Config.markerMax)
  | .native  => decide (bits t ∈ Config.nativeWidths)
  | .raw     => true

/-- `from_quantity(n)`: the tag `d<n>` if `1 <= n <= 24`, else absent (rule R68). "The comparison is on the whole number `n`,
not on its low bits". -/
def fromQuantity (n : Nat) : Option Tag :=
  if 1 ≤ n ∧ n ≤ Config.markerMax then some ⟨.dynamic, BitVec.ofNat 6 n⟩ else none

/-- `from_capability(T) = from_quantity(bits(T))` (rule R69); its callers test `tag_ok(T)` first. -/
def fromCapability (t : Tag) : Option Tag := fromQuantity (bits t)

end Sys2Proof.Machine
end

