-- ==== Sys2Proof/Decode.lean ====
section
/-! DEFINITION. The command word (`30_encoding.md`, rules R45 to R49 and R52): its fields, the opcode map with match and mask,
the decoder (total on 48-bit words, refusing by name) and, after it, the encoder. -/

namespace Sys2Proof

/-! ### Fields -/

/-- `op = CW[47:44]` (rule R45). -/
def opField (w : Word48) : BitVec 4 := w.extractLsb' 44 4
/-- `cd = CW[43:42]` (rule R45). -/
def cdField (w : Word48) : BitVec 2 := w.extractLsb' 42 2
/-- `cs = CW[41:40]` (rule R45). -/
def csField (w : Word48) : BitVec 2 := w.extractLsb' 40 2
/-- `cls = CW[39:38]` (rule R45). -/
def clsField (w : Word48) : BitVec 2 := w.extractLsb' 38 2
/-- `q = CW[37:32]` (rule R45). -/
def qField (w : Word48) : BitVec 6 := w.extractLsb' 32 6
/-- `imm = CW[31:0]` (rule R45). -/
def immField (w : Word48) : Word := w.extractLsb' 0 32

/-- A slot operand is "the 2-bit field as a number 0..3" (rule R49). -/
def SlotId.ofBits (b : BitVec 2) : SlotId :=
  if b = 0 then .c0 else if b = 1 then .c1 else if b = 2 then .c2 else .c3

/-- The slot's number (rule R10). -/
def SlotId.toBits : SlotId → BitVec 2
  | .c0 => 0 | .c1 => 1 | .c2 => 2 | .c3 => 3

/-- The class numbers of rule R13's table: S = 00, D = 01, U = 10, R = 11. -/
def WidthClass.ofBits (b : BitVec 2) : WidthClass :=
  if b = 0 then .marker else if b = 1 then .dynamic else if b = 2 then .native else .raw

/-- The class numbers of rule R13's table. -/
def WidthClass.toBits : WidthClass → BitVec 2
  | .marker => 0 | .dynamic => 1 | .native => 2 | .raw => 3

/-- `T[7:0] = {cls[1:0], q[5:0]}` (rule R13). -/
def Tag.toBits (t : Tag) : Byte := t.cls.toBits ++ t.q

/-! ### The opcode map (rule R47) -/

/-- The nine opcodes that are defined. -/
inductive Op where
  | pack | tobytes | tobyte | tou32 | rdgrp | clone | wbits | dynq | dync
deriving DecidableEq, Repr

/-- Why a word is no command (rule R48). Both are the fault ILLEGAL_CMD (rule R117). -/
inductive DecodeError where
  /-- the opcode is 0x0, 0x7 or 0xB to 0xF -/
  | reservedOpcode (op : BitVec 4)
  /-- the opcode is defined and a field its command does not use is not zero (rule R46) -/
  | unusedFieldSet (op : Op)
deriving DecidableEq, Repr

/-- What decoding a word gives. -/
inductive Decoded where
  | command (i : Instr)
  | illegal (why : DecodeError)
deriving DecidableEq, Repr

/-- The opcode number of a command (rule R47's column `op`). -/
def Op.code : Op → BitVec 4
  | .pack => 0x1 | .tobytes => 0x2 | .tobyte => 0x3 | .tou32 => 0x4 | .rdgrp => 0x5 | .clone => 0x6
  | .wbits => 0x8 | .dynq => 0x9 | .dync => 0xA

/-- The row of rule R47 for an opcode number; none for the reserved ones. -/
def Op.ofCode (b : BitVec 4) : Option Op :=
  if b = 0x1 then some .pack
  else if b = 0x2 then some .tobytes
  else if b = 0x3 then some .tobyte
  else if b = 0x4 then some .tou32
  else if b = 0x5 then some .rdgrp
  else if b = 0x6 then some .clone
  else if b = 0x8 then some .wbits
  else if b = 0x9 then some .dynq
  else if b = 0xA then some .dync
  else none

/-- Rule R47's column `match`. -/
def Op.pattern : Op → Word48
  | .pack    => 0x100000000000
  | .tobytes => 0x200000000000
  | .tobyte  => 0x300000000000
  | .tou32   => 0x400000000000
  | .rdgrp   => 0x500000000000
  | .clone   => 0x600000000000
  | .wbits   => 0x800000000000
  | .dynq    => 0x900000000000
  | .dync    => 0xA00000000000

/-- Rule R47's column `mask`: the opcode and the fields the command does not use. -/
def Op.mask : Op → Word48
  | .pack    => 0xF30000000000
  | .tobytes => 0xFCFFFFFFFFFF
  | .tobyte  => 0xFCFFFFFFFFFF
  | .tou32   => 0xFCFFFFFFFFFF
  | .rdgrp   => 0xFCFFFFFFFFFF
  | .clone   => 0xF0FFFFFFFFFF
  | .wbits   => 0xFF00FFFFFFFF
  | .dynq    => 0xFFFF00000000
  | .dync    => 0xFF00FFFFFFFF

/-- The tag operand `T = CW[39:32]` (rule R49). -/
def tagField (w : Word48) : Tag := ⟨WidthClass.ofBits (clsField w), qField w⟩

/-- The command of an opcode "with its operand fields read as in rule R49" (rule R52). -/
def readOperands (o : Op) (w : Word48) : Instr :=
  match o with
  | .pack    => .pack (SlotId.ofBits (cdField w)) (tagField w) (immField w)
  | .tobytes => .tobytes (SlotId.ofBits (csField w))
  | .tobyte  => .tobyte (SlotId.ofBits (csField w))
  | .tou32   => .tou32 (SlotId.ofBits (csField w))
  | .rdgrp   => .rdgrp (SlotId.ofBits (csField w))
  | .clone   => .clone (SlotId.ofBits (cdField w)) (SlotId.ofBits (csField w))
  | .wbits   => .wbits (tagField w)
  | .dynq    => .dynq (immField w)
  | .dync    => .dync (tagField w)

/-- `decode(w)` of rule R52: the opcode's row, then `w AND mask = match`, then the operands. Total on 48-bit words. -/
def decode (w : Word48) : Decoded :=
  match Op.ofCode (opField w) with
  | none => .illegal (.reservedOpcode (opField w))
  | some o =>
    if w &&& o.mask = o.pattern then .command (readOperands o w) else .illegal (.unusedFieldSet o)

/-- The instruction the decoder reads from an instruction whose bits are `w`, bit 0 being the least significant bit of the
command word, as spec/opcode_table.json numbers them. Of `w` the low `nbits` bits count; a command word is 48 bits, and a
number that does not fit 48 bits is no command word. -/
def decodeTableWord (nbits w : Nat) : Option Instr :=
  if w % 2 ^ nbits < 2 ^ Config.cwBits then
    match decode (BitVec.ofNat 48 (w % 2 ^ nbits)) with
    | .command i => some i
    | .illegal _ => none
  else none

/-! ### The encoder -/

/-- A command word from its fields (rule R45's table, most significant field first). -/
def commandWord (op : BitVec 4) (cd cs : BitVec 2) (tag : Byte) (imm : Word) : Word48 :=
  op ++ cd ++ cs ++ tag ++ imm

/-- The one encoding of a command (rules R45, R46, R47): the fields it does not use are zero. -/
def encode : Instr → Word48
  | .pack cd t v => commandWord 0x1 cd.toBits 0 t.toBits v
  | .tobytes cs  => commandWord 0x2 0 cs.toBits 0 0
  | .tobyte cs   => commandWord 0x3 0 cs.toBits 0 0
  | .tou32 cs    => commandWord 0x4 0 cs.toBits 0 0
  | .rdgrp cs    => commandWord 0x5 0 cs.toBits 0 0
  | .clone cd cs => commandWord 0x6 cd.toBits cs.toBits 0 0
  | .wbits t     => commandWord 0x8 0 0 t.toBits 0
  | .dynq n      => commandWord 0x9 0 0 0 n
  | .dync t      => commandWord 0xA 0 0 t.toBits 0

end Sys2Proof
end

