-- ==== Sys2Proof/Machine/State.lean ====
section
/-! DEFINITION. The state of the block (`10_state.md`): four container slots and the flag FSEEN, with the host's side of the
command port beside them; the reasons a step can stop; the state after reset. -/

namespace Sys2Proof.Machine

/-- A Packed Value Container: "an ordered sequence of byte-sized bit-groups ... plus one Width value `W`" (rule R11). -/
structure Container where
  /-- `WT`, the width tag (rule R13) -/
  wt : Tag
  /-- `G`, the groups, first group first (rule R12); exactly the groups the container has (rule R22) -/
  g : List Byte
deriving DecidableEq, Repr

/-- All state of the block, and the host's side of its port. A slot is `some` exactly when its `V` is 1; of a slot with
`V = 0` the model holds no `WT` and no `G`, because "a model must not give them one" (rule R10; DESIGN CHOICE, log entry 1).
`commands` and `responses` are the HOST's lists (rules R23, R140), no state of the block (DESIGN CHOICE, log entry 3). -/
structure State where
  /-- slot c0 -/
  c0 : Option Container
  /-- slot c1 -/
  c1 : Option Container
  /-- slot c2 -/
  c2 : Option Container
  /-- slot c3 -/
  c3 : Option Container
  /-- the sticky flag FSEEN (rule R18) -/
  fseen : Bool
  /-- command words the host has still to present, oldest first -/
  commands : List Word48
  /-- response words answered so far, oldest first -/
  responses : List Word48
deriving DecidableEq, Repr

/-- The four faults of the SPEC (rule R115). None of them stops the machine: the block answers the code and takes the next
command (rule R116), so in the model each is a next state. -/
inductive Cause where
  /-- code 1 (rule R117) -/
  | illegalCmd
  /-- code 2 (rule R118) -/
  | badTag
  /-- code 3 (rule R119) -/
  | emptySlot
  /-- code 4 (rule R120) -/
  | widthOverflow
deriving DecidableEq, Repr

/-- The reasons the MODEL's step stops. -/
inductive Fault where
  /-- Raised by TOBYTES, TOBYTE, TOU32 and RDGRP on a slot whose groups and tag are outside the domain on which rules R95 and
  R97 define `unpack_bytes` and `pad4`. No state that meets rule R25 has such a slot. Safe: nothing is claimed of a state for
  which the spec defines nothing (log entry 4). -/
  | malformedContainer
deriving DecidableEq, Repr

/-- Why an instruction has no meaning. -/
inductive Refusal where
  /-- The instruction has no meaning yet. No arm of `exec` answers it: all nine commands are modelled. Safe. -/
  | notModelled (mnemonic : String)
deriving DecidableEq, Repr

/-- The block after reset: no slot valid, FSEEN clear (rules R24, R135), and a host that has presented nothing. -/
def State.reset : State where
  c0 := none
  c1 := none
  c2 := none
  c3 := none
  fseen := false
  commands := []
  responses := []

end Sys2Proof.Machine
end

