-- ==== Sys2Proof/Machine/Flags.lean ====
section
/-! DEFINITION. The block's one flag, FSEEN (rule R18): a fault sets it, no command clears it, no command reads it. There are
no condition codes. -/

namespace Sys2Proof.Machine

/-- `FSEEN <- 1` (rules R18, R116 (b)). -/
def State.setFseen (s : State) : State := { s with fseen := true }

end Sys2Proof.Machine
end

