-- ==== Sys2Proof/Machine/Ops.lean ====
section
/-! DEFINITION. The named operations over the state: reading and writing a slot, the response word, raising a fault, reading a
container for extraction, and the host's side of the port. Every read and write of State goes through these. -/

namespace Sys2Proof.Machine

/-! ### Slots (rule R10) -/

/-- The container slot `i` holds, none when its `V` is 0 (rule R10). -/
def State.slot (s : State) : SlotId → Option Container
  | .c0 => s.c0
  | .c1 => s.c1
  | .c2 => s.c2
  | .c3 => s.c3

/-- `c[i] <- {V = 1, WT, G}`: "writes all three fields of slot `i` at once" (`00_scope.md`, Notation). -/
def State.setSlot (s : State) (i : SlotId) (c : Container) : State :=
  match i with
  | .c0 => { s with c0 := some c }
  | .c1 => { s with c1 := some c }
  | .c2 => { s with c2 := some c }
  | .c3 => { s with c3 := some c }

/-! ### The response word (rule R50) -/

/-- `respond(status, present, len, wtag, data)`: the response word of rule R50, bit 43 always 0. -/
def respond (status : BitVec 3) (present : Bool) (len : BitVec 3) (wtag : Byte) (data : Word) : Word48 :=
  status ++ BitVec.ofBool present ++ (0 : BitVec 1) ++ len ++ wtag ++ data

/-- `respond_ok() = respond(0, 0, 0, 0, 0)`. -/
def respondOk : Word48 := respond 0 false 0 0 0

/-- The block answers one response word (rule R50: "Every command produces exactly one 48-bit response word"). -/
def State.answer (s : State) (r : Word48) : State := { s with responses := s.responses ++ [r] }

/-! ### Faults (rules R115, R116) -/

/-- The fault code, the `status` of the response (rule R115). -/
def Cause.code : Cause → BitVec 3
  | .illegalCmd    => 1
  | .badTag        => 2
  | .emptySlot     => 3
  | .widthOverflow => 4

/-- `raise <Fault>`: no slot is written, `FSEEN <- 1`, the response is `respond(code, 0, 0, 0, 0)` (rule R116). Control goes
nowhere and there is no return (rules R123, R124): the block takes the next command. -/
def State.raise (s : State) (c : Cause) : State :=
  s.setFseen.answer (respond c.code false 0 0 0)

/-! ### Reading a slot for extraction -/

/-- The shared shape of TOBYTES, TOBYTE, TOU32 and RDGRP (rules R100 to R103): EMPTY_SLOT if the slot holds no container, else
the answer `f` computes from the container. Where `f` has no answer the container is outside the domain of rules R95 and R97;
no reachable state has one (rule R25), and the model stops by name (log entry 4). -/
def extract (s : State) (cs : SlotId) (f : Container → Option Word48) : Host.Outcome State Fault Refusal :=
  match s.slot cs with
  | none => .next (s.raise .emptySlot)
  | some c =>
    match f c with
    | none => .fault .malformedContainer
    | some r => .next (s.answer r)

/-! ### The host's side of the port (rules R128, R140) -/

/-- The next command word the host presents, and the state without it; none when the host presents nothing. -/
def State.takeCommand (s : State) : Option (Word48 × State) :=
  match s.commands with
  | [] => none
  | w :: ws => some (w, { s with commands := ws })

/-- `s` with the word `w` as the very next command the host presents. -/
def State.placeCommand (s : State) (w : Word48) : State := { s with commands := w :: s.commands }

/-- The host issues one more command word, after those it has still to present (rule R128). -/
def State.hostPresent (s : State) (w : Word48) : State := { s with commands := s.commands ++ [w] }

/-- The reset event between two commands: every `V <- 0`, `FSEEN <- 0` (rule R135); the host keeps its own lists. It is the
host's act and no part of a step (rule R136). -/
def State.hostReset (s : State) : State :=
  { State.reset with commands := s.commands, responses := s.responses }

end Sys2Proof.Machine
end

