-- ==== Sys2Proof/Machine/Construct.lean ====
section
/-! DEFINITION. The commands that make a container, PACK and CLONE (`41_pack.md`, rules R85 and R91): the only ones that write
a slot (rule R15). -/

namespace Sys2Proof.Machine

/-- `PACK cd, T, value` (rule R85). `pack` gives no group sequence exactly when the bit count is above 32, and that is
WIDTH_OVERFLOW (rules R87, R120). -/
def execPack (cd : SlotId) (t : Tag) (value : Word) (s : State) : Host.Outcome State Fault Refusal :=
  if tagOk t then
    match pack value (bits t) with
    | none => .next (s.raise .widthOverflow)
    | some g => .next ((s.setSlot cd ⟨t, g⟩).answer respondOk)
  else .next (s.raise .badTag)

/-- `CLONE cd, cs` (rule R91). -/
def execClone (cd cs : SlotId) (s : State) : Host.Outcome State Fault Refusal :=
  match s.slot cs with
  | none => .next (s.raise .emptySlot)
  | some c => .next ((s.setSlot cd c).answer respondOk)

end Sys2Proof.Machine
end

