-- ==== Sys2Proof/Machine/Extract.lean ====
section
/-! DEFINITION. The extraction commands TOBYTES, TOBYTE, TOU32 and RDGRP (`42_extract.md`, rules R100 to R103). They write no
slot (rule R99). -/

namespace Sys2Proof.Machine

/-- The answer of TOBYTES: `len(B)` and `pad4(B)` for `B = unpack_bytes(G, bits(WT))` (rule R100). -/
def tobytesResponse (c : Container) : Option Word48 := do
  let bytes ← unpackBytes c.g (bits c.wt)
  let data ← pad4 bytes
  return respond 0 false (BitVec.ofNat 3 bytes.length) 0 data

/-- The answer of TOBYTE: `zext_32(first_byte(G, bits(WT)))` (rule R101). -/
def tobyteResponse (c : Container) : Option Word48 := do
  let x ← firstByte c.g (bits c.wt)
  return respond 0 false 0 0 (x.setWidth 32)

/-- The answer of TOU32: `le_value(B)` (rule R102). -/
def tou32Response (c : Container) : Option Word48 := do
  let bytes ← unpackBytes c.g (bits c.wt)
  let data ← pad4 bytes
  return respond 0 false 0 0 data

/-- The answer of RDGRP: `len(G)`, the stored tag and `pad4(G)` (rule R103). -/
def rdgrpResponse (c : Container) : Option Word48 := do
  let data ← pad4 c.g
  return respond 0 false (BitVec.ofNat 3 c.g.length) c.wt.toBits data

/-- `TOBYTES cs` (rule R100). -/
def execTobytes (cs : SlotId) (s : State) : Host.Outcome State Fault Refusal := extract s cs tobytesResponse

/-- `TOBYTE cs` (rule R101). -/
def execTobyte (cs : SlotId) (s : State) : Host.Outcome State Fault Refusal := extract s cs tobyteResponse

/-- `TOU32 cs` (rule R102). -/
def execTou32 (cs : SlotId) (s : State) : Host.Outcome State Fault Refusal := extract s cs tou32Response

/-- `RDGRP cs` (rule R103). -/
def execRdgrp (cs : SlotId) (s : State) : Host.Outcome State Fault Refusal := extract s cs rdgrpResponse

end Sys2Proof.Machine
end

