-- ==== Sys2Proof/Machine/Width.lean ====
section
/-! DEFINITION. The width commands WBITS, DYNQ and DYNC (`40_width.md`, rules R70 to R72). They touch no slot (rule R10). -/

namespace Sys2Proof.Machine

/-- The answer of DYNQ and DYNC: `present` and the tag, or absent, which is no fault (rules R71, R72, R121 (a)). -/
def dynamicResponse : Option Tag → Word48
  | some t => respond 0 true 0 t.toBits 0
  | none => respond 0 false 0 0 0

/-- `WBITS T` (rule R70). -/
def execWbits (t : Tag) (s : State) : Host.Outcome State Fault Refusal :=
  if tagOk t then .next (s.answer (respond 0 false 0 0 (BitVec.ofNat 32 (bits t)))) else .next (s.raise .badTag)

/-- `DYNQ n` (rule R71). -/
def execDynq (n : Word) (s : State) : Host.Outcome State Fault Refusal :=
  .next (s.answer (dynamicResponse (fromQuantity n.toNat)))

/-- `DYNC T` (rule R72). -/
def execDync (t : Tag) (s : State) : Host.Outcome State Fault Refusal :=
  if tagOk t then .next (s.answer (dynamicResponse (fromCapability t))) else .next (s.raise .badTag)

end Sys2Proof.Machine
end

