-- ==== Sys2Proof/Machine/Dispatch.lean ====
section
/-! DEFINITION. Executing one decoded command: one arm per constructor of Instr, each one call of its meaning. -/

namespace Sys2Proof.Machine

def exec (i : Instr) (s : State) : Host.Outcome State Fault Refusal :=
  match i with
  | .pack cd t value => Sys2Proof.Machine.execPack cd t value s
  | .tobytes cs => Sys2Proof.Machine.execTobytes cs s
  | .tobyte cs => Sys2Proof.Machine.execTobyte cs s
  | .tou32 cs => Sys2Proof.Machine.execTou32 cs s
  | .rdgrp cs => Sys2Proof.Machine.execRdgrp cs s
  | .clone cd cs => Sys2Proof.Machine.execClone cd cs s
  | .wbits t => Sys2Proof.Machine.execWbits t s
  | .dynq n => Sys2Proof.Machine.execDynq n s
  | .dync t => Sys2Proof.Machine.execDync t s

end Sys2Proof.Machine
end

