-- ==== Sys2Proof/Machine/Step.lean ====
section
/-! DEFINITION. One step: the block executes the next command word the host presents, to completion (rules R39, R128). A word
that decodes as illegal raises ILLEGAL_CMD before anything else is looked at (rule R117). With no command presented the block
is idle with its state held (rules R130, R140). -/

namespace Sys2Proof.Machine

/-- One step of the block. -/
def step (s : State) : Host.Outcome State Fault Refusal :=
  match s.takeCommand with
  | none => .next s
  | some (w, s') =>
    match decode w with
    | .command i => exec i s'
    | .illegal _ => .next (s'.raise .illegalCmd)

/-- `s` with the instruction whose bits are the low `nbits` bits of `w` as the very next command word the host presents: the
block fetches nothing, so this stands for the host's presenting it (rule R17; log entry 3). -/
def State.withFetchWord (s : State) (nbits w : Nat) : State :=
  s.placeCommand (BitVec.ofNat 48 (w % 2 ^ nbits))

end Sys2Proof.Machine
end

