-- ==== Sys2Proof/Machine/Assembly.lean ====
section
/-! DEFINITION. The notation in which the spec writes commands down (rule R54): reading a line into a command, writing a command
as a line, and the command words of a program, "a finite list of command words that the host issues in order" (rule R56). It is
a notation and no part of the block: a step never reads text. What rule R54 leaves open of the spacing and of the spelling of a
number is a DESIGN CHOICE (log entry 10). -/

namespace Sys2Proof.Machine

/-- What a line of text is. -/
inductive Line where
  /-- nothing but spaces and a comment -/
  | blank
  /-- a command -/
  | command (i : Instr)
  /-- none of the forms of rule R54 -/
  | notACommand
deriving DecidableEq, Repr

/-! ### Numbers -/

/-- The value of a digit, hexadecimal ones in either case. -/
def digitValue (c : Char) : Option Nat :=
  if 48 ≤ c.toNat ∧ c.toNat ≤ 57 then some (c.toNat - 48)
  else if 97 ≤ c.toNat ∧ c.toNat ≤ 102 then some (c.toNat - 87)
  else if 65 ≤ c.toNat ∧ c.toNat ≤ 70 then some (c.toNat - 55)
  else none

/-- The number that digits of a base go on from `n`; none if one is no digit of the base. -/
def readDigits (base : Nat) (n : Nat) : List Char → Option Nat
  | [] => some n
  | c :: cs => do
    let d ← digitValue c
    if d < base then readDigits base (n * base + d) cs else none

/-- The number in a base: at least one digit, and any number of leading zeros (`0013` is 13). Rule R54 says only "in decimal",
hexadecimal or binary: that leading zeros are read is a DESIGN CHOICE (log entry 10). -/
def readNumeral (base : Nat) (cs : List Char) : Option Nat :=
  if cs = [] then none else readDigits base 0 cs

/-- "a number in decimal, `0x` hexadecimal or `0b` binary, 0 to 4294967295" (rule R54). -/
def readWord (cs : List Char) : Option Word := do
  let n ← if cs.take 2 = ['0', 'x'] then readNumeral 16 (cs.drop 2)
    else if cs.take 2 = ['0', 'b'] then readNumeral 2 (cs.drop 2)
    else readNumeral 10 cs
  if n < 2 ^ 32 then some (BitVec.ofNat 32 n) else none

/-! ### Operands -/

/-- "Slot operands are `c0`, `c1`, `c2`, `c3`." (rule R54) -/
def slotName : SlotId → List Char
  | .c0 => ['c', '0']
  | .c1 => ['c', '1']
  | .c2 => ['c', '2']
  | .c3 => ['c', '3']

/-- A slot operand. -/
def readSlot (cs : List Char) : Option SlotId :=
  [SlotId.c0, .c1, .c2, .c3].find? fun i => slotName i = cs

/-- The class letters of rule R13, in lower case (rule R54). -/
def classLetter : WidthClass → Char
  | .marker => 's'
  | .dynamic => 'd'
  | .native => 'u'
  | .raw => 'r'

/-- A tag operand: the class letter and the quantity in decimal; "any quantity 0..63 after any letter" (rule R54). -/
def readTag (cs : List Char) : Option Tag := do
  let letter ← cs.head?
  let cls ← [WidthClass.marker, .dynamic, .native, .raw].find? fun k => classLetter k = letter
  let n ← readNumeral 10 cs.tail
  if n < 64 then some ⟨cls, BitVec.ofNat 6 n⟩ else none

/-! ### Lines -/

/-- The mnemonics, "in capitals as in rule R47". -/
def mnemonic : Op → List Char
  | .pack    => ['P', 'A', 'C', 'K']
  | .tobytes => ['T', 'O', 'B', 'Y', 'T', 'E', 'S']
  | .tobyte  => ['T', 'O', 'B', 'Y', 'T', 'E']
  | .tou32   => ['T', 'O', 'U', '3', '2']
  | .rdgrp   => ['R', 'D', 'G', 'R', 'P']
  | .clone   => ['C', 'L', 'O', 'N', 'E']
  | .wbits   => ['W', 'B', 'I', 'T', 'S']
  | .dynq    => ['D', 'Y', 'N', 'Q']
  | .dync    => ['D', 'Y', 'N', 'C']

/-- Text without the spaces at its ends. -/
def trim (cs : List Char) : List Char :=
  ((cs.dropWhile (· = ' ')).reverse.dropWhile (· = ' ')).reverse

/-- Text cut at every comma. -/
def cutAtCommas : List Char → List (List Char)
  | [] => [[]]
  | c :: cs =>
    if c = ',' then [] :: cutAtCommas cs
    else match cutAtCommas cs with
      | [] => [[c]]
      | x :: xs => (c :: x) :: xs

/-- A command from its mnemonic and its operands, by the forms of rule R54. -/
def readCommand (o : Op) (operands : List (List Char)) : Option Instr :=
  match o, operands with
  | .pack, [d, t, v] => do return .pack (← readSlot d) (← readTag t) (← readWord v)
  | .tobytes, [c] => do return .tobytes (← readSlot c)
  | .tobyte, [c] => do return .tobyte (← readSlot c)
  | .tou32, [c] => do return .tou32 (← readSlot c)
  | .rdgrp, [c] => do return .rdgrp (← readSlot c)
  | .clone, [d, c] => do return .clone (← readSlot d) (← readSlot c)
  | .wbits, [t] => do return .wbits (← readTag t)
  | .dynq, [n] => do return .dynq (← readWord n)
  | .dync, [t] => do return .dync (← readTag t)
  | _, _ => none

/-- One line: `MNEMONIC operand, operand, ...`; "A comment runs from `;` to the end of the line" (rule R54). -/
def readLine (line : List Char) : Line :=
  let text := trim (line.takeWhile (· ≠ ';'))
  if text = [] then .blank
  else
    let word := text.takeWhile (· ≠ ' ')
    let operands := (cutAtCommas (text.dropWhile (· ≠ ' '))).map trim
    let row := [Op.pack, .tobytes, .tobyte, .tou32, .rdgrp, .clone, .wbits, .dynq, .dync].find? fun o => mnemonic o = word
    match row.bind (readCommand · operands) with
    | some i => .command i
    | none => .notACommand

/-- The command words of a program; none if a line is neither blank nor a command. -/
def assemble : List (List Char) → Option (List Word48)
  | [] => some []
  | line :: lines =>
    match readLine line with
    | .blank => assemble lines
    | .command i => (assemble lines).map (encode i :: ·)
    | .notACommand => none

/-! ### Writing a command down -/

/-- A hexadecimal digit. -/
def hexDigit (d : BitVec 4) : Char := if d.toNat < 10 then Char.ofNat (48 + d.toNat) else Char.ofNat (87 + d.toNat)

/-- A value or integer operand, in hexadecimal with all eight digits. -/
def writeWord (v : Word) : List Char :=
  ['0', 'x', hexDigit (v.extractLsb' 28 4), hexDigit (v.extractLsb' 24 4), hexDigit (v.extractLsb' 20 4),
    hexDigit (v.extractLsb' 16 4), hexDigit (v.extractLsb' 12 4), hexDigit (v.extractLsb' 8 4),
    hexDigit (v.extractLsb' 4 4), hexDigit (v.extractLsb' 0 4)]

/-- A tag operand: `s13`, `d13`, `u8`, `r0`, ... (rule R54). -/
def writeTag (t : Tag) : List Char :=
  let q := t.q.toNat
  classLetter t.cls ::
    if q < 10 then [Char.ofNat (48 + q)] else [Char.ofNat (48 + q / 10), Char.ofNat (48 + q % 10)]

/-- Operands with ", " between them. -/
def joinOperands : List (List Char) → List Char
  | [] => []
  | [a] => a
  | a :: b :: rest => a ++ [',', ' '] ++ joinOperands (b :: rest)

/-- A command as a line of text (rule R54). -/
def writeLine (i : Instr) : List Char :=
  match i with
  | .pack cd t v => mnemonic .pack ++ [' '] ++ joinOperands [slotName cd, writeTag t, writeWord v]
  | .tobytes cs  => mnemonic .tobytes ++ [' '] ++ joinOperands [slotName cs]
  | .tobyte cs   => mnemonic .tobyte ++ [' '] ++ joinOperands [slotName cs]
  | .tou32 cs    => mnemonic .tou32 ++ [' '] ++ joinOperands [slotName cs]
  | .rdgrp cs    => mnemonic .rdgrp ++ [' '] ++ joinOperands [slotName cs]
  | .clone cd cs => mnemonic .clone ++ [' '] ++ joinOperands [slotName cd, slotName cs]
  | .wbits t     => mnemonic .wbits ++ [' '] ++ joinOperands [writeTag t]
  | .dynq n      => mnemonic .dynq ++ [' '] ++ joinOperands [writeWord n]
  | .dync t      => mnemonic .dync ++ [' '] ++ joinOperands [writeTag t]

end Sys2Proof.Machine
end

