-- ==== Sys2Proof/WellFormed.lean ====
section
/-! DEFINITION. Well-formedness of a command. Every term of `Instr` has an encoding and every slot number is legal (rules R49,
R52), so the one thing of a command that the spec calls ill-formed is its width tag (rules R13, R67). An ill-formed command is
a LEGAL word with a bad operand (rule R48): it decodes, and executing it faults BAD_TAG (rule R118). -/

namespace Sys2Proof

/-- The width-tag operand of a command: PACK, WBITS and DYNC have one (rule R46's table). -/
def Instr.tagOperand : Instr → Option Tag
  | .pack _ t _ => some t
  | .wbits t => some t
  | .dync t => some t
  | .tobytes _ | .tobyte _ | .tou32 _ | .rdgrp _ | .clone _ _ | .dynq _ => none

/-- The command's tag operand, if it has one, names a width that exists. -/
def Instr.wellFormed (i : Instr) : Bool :=
  match i.tagOperand with
  | some t => Machine.tagOk t
  | none => true

end Sys2Proof
end

