-- ==== Sys2Proof/Safety.lean ====
section
/-! DEFINITION. The terms in which claims about the block are stated: what a well-formed container is (rule R12), the
invariant of every reachable state (rule R25), the group and byte views of a container (rules R83, R95), the fields of a
response word (rule R50), and the four fault conditions of a command word as the spec words them (rules R117 to R120). -/

namespace Sys2Proof

/-- The slot a command writes when it does not fault: the destination of PACK and CLONE (rules R10, R15). -/
def Instr.dest : Instr → Option SlotId
  | .pack cd _ _ => some cd
  | .clone cd _ => some cd
  | .tobytes _ | .tobyte _ | .tou32 _ | .rdgrp _ | .wbits _ | .dynq _ | .dync _ => none

/-- The slot a command reads (rule R10). -/
def Instr.source : Instr → Option SlotId
  | .tobytes cs | .tobyte cs | .tou32 cs | .rdgrp cs => some cs
  | .clone _ cs => some cs
  | .pack _ _ _ | .wbits _ | .dynq _ | .dync _ => none

end Sys2Proof

namespace Sys2Proof.Machine

/-! ### Containers and the invariant -/

/-- The container is in the domain of `unpack_bytes` (rule R95): rule R12 (a) and (e). -/
abbrev Container.Sized (c : Container) : Prop := bits c.wt ≤ 32 ∧ c.g.length = ngroups (bits c.wt)

/-- Rule R12 (c): the bits of a partial last group below its meaningful bits are zero. -/
def Container.PaddedWithZeros (c : Container) : Prop :=
  rem (bits c.wt) ≠ 0 → ∀ x, c.g[full (bits c.wt)]? = some x → x.toNat % 2 ^ (8 - rem (bits c.wt)) = 0

/-- Rules R25 and R12: the tag names a width, the count is at most 32, the groups are as many as the count asks for, and a
partial last group is padded with zeros. -/
def Container.Wf (c : Container) : Prop := tagOk c.wt = true ∧ c.Sized ∧ c.PaddedWithZeros

/-- Rule R25: "`G = pack(v, bits(WT))` for some 32-bit `v`". -/
def Container.Packed (c : Container) : Prop := ∃ v : Word, pack v (bits c.wt) = some c.g

/-- The reachable-state invariant (rule R25): every valid slot holds a well-formed container that some value packs to. -/
def State.Inv (s : State) : Prop := ∀ i c, s.slot i = some c → c.Wf ∧ c.Packed

/-! ### The two views of a container -/

/-- The groups of value `v` at width `b`, element by element (rule R83): `ceil(b/8)` of them, the first `b div 8` the value's
bytes unchanged, and for a partial width the next byte shifted left by `8 - b mod 8`. -/
def GroupView (v : Word) (b : Nat) (g : List Byte) : Prop :=
  g.length = (b + 7) / 8 ∧ (∀ k < b / 8, g[k]? = some (v.extractLsb' (8 * k) 8)) ∧
    (b % 8 ≠ 0 → g[b / 8]? = some (v.extractLsb' (8 * (b / 8)) 8 <<< (8 - b % 8)))

/-- The bytes of groups `g` at width `b`, element by element (rule R95): as many as the groups, the first `b div 8` the same,
and for a partial width the last group shifted right by `8 - b mod 8`. -/
def ByteView (g : List Byte) (b : Nat) (bytes : List Byte) : Prop :=
  bytes.length = (b + 7) / 8 ∧ (∀ k < b / 8, bytes[k]? = g[k]?) ∧
    (b % 8 ≠ 0 → bytes[b / 8]? = g[b / 8]?.map fun x : Byte => x >>> (8 - b % 8))

/-- "sum over k < len(B) of B[k] * 2^(8k)" (rule R97). -/
def leNat : List Byte → Nat
  | [] => 0
  | x :: xs => x.toNat + 256 * leNat xs

/-! ### The fields of a response word (rule R50) -/

/-- `status = RW[47:45]`. -/
abbrev respStatus (r : Word48) : BitVec 3 := r.extractLsb' 45 3
/-- `present = RW[44]`. -/
abbrev respPresent (r : Word48) : BitVec 1 := r.extractLsb' 44 1
/-- `RW[43]`, "always 0". -/
abbrev respBit43 (r : Word48) : BitVec 1 := r.extractLsb' 43 1
/-- `len = RW[42:40]`. -/
abbrev respLen (r : Word48) : BitVec 3 := r.extractLsb' 40 3
/-- `wtag = RW[39:32]`. -/
abbrev respTag (r : Word48) : Byte := r.extractLsb' 32 8
/-- `data = RW[31:0]`. -/
abbrev respData (r : Word48) : Word := r.extractLsb' 0 32

/-! ### The fault conditions of a command word, bit fields written out (rules R45, R117 to R120) -/

/-- Rules R48 and R117: a reserved opcode, or a bit set in a field the command does not use (rule R46's table). -/
abbrev IllegalWord (w : Word48) : Prop :=
  (w.extractLsb' 44 4).toNat ∈ [0x0, 0x7, 0xB, 0xC, 0xD, 0xE, 0xF] ∨
  ((w.extractLsb' 44 4).toNat = 0x1 ∧ w.extractLsb' 40 2 ≠ 0) ∨
  ((w.extractLsb' 44 4).toNat ∈ [0x2, 0x3, 0x4, 0x5] ∧ (w.extractLsb' 42 2 ≠ 0 ∨ w.extractLsb' 0 40 ≠ 0)) ∨
  ((w.extractLsb' 44 4).toNat = 0x6 ∧ w.extractLsb' 0 40 ≠ 0) ∨
  ((w.extractLsb' 44 4).toNat ∈ [0x8, 0xA] ∧ (w.extractLsb' 40 4 ≠ 0 ∨ w.extractLsb' 0 32 ≠ 0)) ∨
  ((w.extractLsb' 44 4).toNat = 0x9 ∧ w.extractLsb' 32 12 ≠ 0)

/-- Rule R118: "class S or D with `q` = 0 or `q` in 25..63; class U with `q` not in {8, 16, 32}", in a PACK, WBITS or DYNC
word. -/
abbrev BadTagWord (w : Word48) : Prop :=
  (w.extractLsb' 44 4).toNat ∈ [0x1, 0x8, 0xA] ∧
  (((w.extractLsb' 38 2).toNat ≤ 1 ∧ ((w.extractLsb' 32 6).toNat = 0 ∨ 25 ≤ (w.extractLsb' 32 6).toNat)) ∨
    ((w.extractLsb' 38 2).toNat = 2 ∧ (w.extractLsb' 32 6).toNat ∉ [8, 16, 32]))

/-- Rule R119: a TOBYTES, TOBYTE, TOU32, RDGRP or CLONE word whose source slot has `V = 0`. -/
abbrev EmptySlotWord (w : Word48) (s : State) : Prop :=
  (w.extractLsb' 44 4).toNat ∈ [0x2, 0x3, 0x4, 0x5, 0x6] ∧ s.slot (SlotId.ofBits (w.extractLsb' 40 2)) = none

/-- Rule R120: a PACK word with a raw tag of a count above 32. -/
abbrev WidthOverflowWord (w : Word48) : Prop :=
  (w.extractLsb' 44 4).toNat = 0x1 ∧ (w.extractLsb' 38 2).toNat = 3 ∧ 32 < (w.extractLsb' 32 6).toNat

/-- The status of the response to the word `w`: the first condition that holds, in the order of rule R122. -/
def faultCode (w : Word48) (s : State) : BitVec 3 :=
  if IllegalWord w then 1
  else if BadTagWord w then 2
  else if EmptySlotWord w s then 3
  else if WidthOverflowWord w then 4
  else 0

end Sys2Proof.Machine
end

