-- ==== Sys2Proof/Certificates/Slice0/Obligations.lean ====
section
/-! DEFINITION. The statements about the block, from the numbered rules of spec/. Each docstring names the rules. -/

open Sys2Proof Sys2Proof.Machine

/-! ### Reset, the invariant, runs -/

/-- Rule R24: after reset no slot is valid and FSEEN is 0, and what WT and G might hold cannot be observed: by rules R119 and R116
every command that reads a slot answers EMPTY_SLOT after the responses the host has (its list, log entry 3) and sets FSEEN. -/
def Obligations.ResetHasEmptySlotsAndClearFlag : Prop :=
  (∀ j, State.reset.slot j = none) ∧ State.reset.fseen = false ∧
  ∀ i cs, i.source = some cs →
    exec i State.reset =
      .next { State.reset with fseen := true, responses := State.reset.responses ++ [0x600000000000] }

/-- Rule R135: a reset between two commands empties every slot and clears FSEEN, whatever they held, and the block is ready for
a command. That the host keeps its two lists over it is the model's choice (log entry 6). -/
def Obligations.HostResetEmptiesSlotsAndClearsFlag : Prop :=
  ∀ s : State, (∀ j, s.hostReset.slot j = none) ∧ s.hostReset.fseen = false ∧
    s.hostReset.commands = s.commands ∧ s.hostReset.responses = s.responses ∧
    ∃ t, step s.hostReset = .next t

/-- Rule R25 at reset. -/
def Obligations.InvariantHoldsAtReset : Prop := State.reset.Inv

/-- Rule R25, one step: from every state that meets the invariant, the next state meets it. -/
def Obligations.EveryStepKeepsTheInvariant : Prop :=
  ∀ s t : State, s.Inv → step s = .next t → t.Inv

/-- Rule R25: "In every state reachable from reset by any sequence of commands, every slot with `V = 1` has `tag_ok(WT)`,
`bits(WT) <= 32`, and satisfies rule R12 (a) to (e); moreover `G = pack(v, bits(WT))` for some 32-bit `v`". -/
def Obligations.EveryReachableStateMeetsTheInvariant : Prop :=
  ∀ (words : List Word48) (n : Nat) (t : State),
    Host.Core.run Sys2Proof.core n { State.reset with commands := words } = .next t → t.Inv

/-- Rules R116, R139 and the last paragraph of `93_implementation_defined.md` Part 2: the block never stops. -/
def Obligations.EveryStepAnswersANextState : Prop :=
  ∀ s : State, s.Inv → ∃ t, step s = .next t

/-- Rules R39, R50, R140: a run executes every command presented, in order, and answers exactly one response word for each. -/
def Obligations.EveryRunAnswersOneResponsePerCommand : Prop :=
  ∀ s : State, s.Inv → ∃ t answers,
    Host.Core.run Sys2Proof.core s.commands.length s = .next t ∧ t.Inv ∧ t.commands = [] ∧
    t.responses = s.responses ++ answers ∧ answers.length = s.commands.length

/-- Rules R18, R140: over any number of steps, FSEEN is 1 at the end exactly when it was 1 at the start or some response since
has a status that is not 0. -/
def Obligations.FlagAtTheEndOfARunTellsOfFaults : Prop :=
  ∀ (n : Nat) (s t : State), Host.Core.run Sys2Proof.core n s = .next t →
    ∃ answers, t.responses = s.responses ++ answers ∧
      (t.fseen = true ↔ s.fseen = true ∨ ∃ r ∈ answers, respStatus r ≠ 0)

/-- Rule R39: "Command `k+1` sees every state change of commands 1 to `k` and none of any later one": running a list of
commands and then another is running the two lists joined. -/
def Obligations.RunOfJoinedListsIsRunOfOneThenTheOther : Prop :=
  ∀ (first second : List Word48) (s t : State),
    Host.Core.run Sys2Proof.core first.length { s with commands := first } = .next t →
    Host.Core.run Sys2Proof.core (first ++ second).length { s with commands := first ++ second } =
      Host.Core.run Sys2Proof.core second.length { t with commands := second }

/-! ### One step -/

/-- A step executes the decoded command, in the state from which the word has been taken (rule R39). -/
def Obligations.StepRunsTheDecodedCommand : Prop :=
  ∀ (s : State) (w : Word48) (rest : List Word48) (i : Instr),
    s.commands = w :: rest → decode w = .command i → step s = exec i { s with commands := rest }

/-- Rule R117: ILLEGAL_CMD is raised exactly on the words rule R48 lists, in every state, before anything else is looked at. -/
def Obligations.IllegalWordsRaiseIllegalCmd : Prop :=
  ∀ w : Word48,
    ((∃ why, decode w = .illegal why) ↔ IllegalWord w) ∧
    ∀ (s : State) (rest : List Word48), s.commands = w :: rest → IllegalWord w →
      step s = .next { s with commands := rest, fseen := true, responses := s.responses ++ [0x200000000000] }

/-- Rules R130, R140: with no command presented the block is idle with its state held. -/
def Obligations.IdleBlockHoldsItsState : Prop :=
  ∀ s : State, s.commands = [] → step s = .next s

/-- Rules R23, R39: what a step does to the slots, FSEEN and the response word does not depend on earlier responses or on the
commands that follow. -/
def Obligations.StepDoesNotDependOnTheHostsLists : Prop :=
  ∀ (s t : State) (w : Word48) (later : List Word48) (earlier : List Word48),
    step { s with commands := w :: later, responses := earlier } = .next t →
    ∃ r, t.responses = earlier ++ [r] ∧ t.commands = later ∧
      ∀ later' earlier', step { s with commands := w :: later', responses := earlier' } =
        .next { t with commands := later', responses := earlier' ++ [r] }

/-! ### Encoding -/

/-- Rule R52: "`decode(encode(c)) = c`", every command with every operand, ill-formed tags included. -/
def Obligations.DecodeOfEncodeIsTheCommand : Prop :=
  ∀ i : Instr, decode (encode i) = .command i

/-- Rule R52: "`encode(decode(w)) = w` for every legal `w`". -/
def Obligations.EncodeOfADecodedWordIsTheWord : Prop :=
  ∀ (w : Word48) (i : Instr), decode w = .command i → encode i = w

/-- Rule R47: "a command word `w` is that command when `w AND mask = match`", the nine rows written out, and a reserved opcode
is no command. -/
def Obligations.WordIsTheCommandWhoseRowItMatches : Prop :=
  ∀ w : Word48,
    ((∃ cd t v, decode w = .command (.pack cd t v)) ↔ w &&& 0xF30000000000 = 0x100000000000) ∧
    ((∃ cs, decode w = .command (.tobytes cs)) ↔ w &&& 0xFCFFFFFFFFFF = 0x200000000000) ∧
    ((∃ cs, decode w = .command (.tobyte cs)) ↔ w &&& 0xFCFFFFFFFFFF = 0x300000000000) ∧
    ((∃ cs, decode w = .command (.tou32 cs)) ↔ w &&& 0xFCFFFFFFFFFF = 0x400000000000) ∧
    ((∃ cs, decode w = .command (.rdgrp cs)) ↔ w &&& 0xFCFFFFFFFFFF = 0x500000000000) ∧
    ((∃ cd cs, decode w = .command (.clone cd cs)) ↔ w &&& 0xF0FFFFFFFFFF = 0x600000000000) ∧
    ((∃ t, decode w = .command (.wbits t)) ↔ w &&& 0xFF00FFFFFFFF = 0x800000000000) ∧
    ((∃ n, decode w = .command (.dynq n)) ↔ w &&& 0xFFFF00000000 = 0x900000000000) ∧
    ((∃ t, decode w = .command (.dync t)) ↔ w &&& 0xFF00FFFFFFFF = 0xA00000000000) ∧
    ((w.extractLsb' 44 4).toNat ∈ [0x0, 0x7, 0xB, 0xC, 0xD, 0xE, 0xF] → ∃ why, decode w = .illegal why)

/-- Rules R45, R49: every operand is read from its own field of the word, as it stands. -/
def Obligations.OperandsAreReadFromTheirFields : Prop :=
  ∀ w : Word48,
    (∀ cd t v, decode w = .command (.pack cd t v) →
      cd.toBits = w.extractLsb' 42 2 ∧ t.toBits = w.extractLsb' 32 8 ∧ v = w.extractLsb' 0 32) ∧
    (∀ cs, (decode w = .command (.tobytes cs) ∨ decode w = .command (.tobyte cs) ∨ decode w = .command (.tou32 cs) ∨
      decode w = .command (.rdgrp cs)) → cs.toBits = w.extractLsb' 40 2) ∧
    (∀ cd cs, decode w = .command (.clone cd cs) →
      cd.toBits = w.extractLsb' 42 2 ∧ cs.toBits = w.extractLsb' 40 2) ∧
    (∀ t, (decode w = .command (.wbits t) ∨ decode w = .command (.dync t)) → t.toBits = w.extractLsb' 32 8) ∧
    (∀ n, decode w = .command (.dynq n) → n = w.extractLsb' 0 32)

/-- Worked encodings of `30_encoding.md` section 9 and `95_test_vectors.md` V-E, one for each command and three illegal
words. -/
def Obligations.WorkedEncodingsDecode : Prop :=
  decode 0x140D00001ABC = .command (.pack .c1 ⟨.marker, 13⟩ 0x1ABC) ∧
  decode 0x230000000000 = .command (.tobytes .c3) ∧
  decode 0x310000000000 = .command (.tobyte .c1) ∧
  decode 0x430000000000 = .command (.tou32 .c3) ∧
  decode 0x510000000000 = .command (.rdgrp .c1) ∧
  decode 0x690000000000 = .command (.clone .c2 .c1) ∧
  decode 0x804D00000000 = .command (.wbits ⟨.dynamic, 13⟩) ∧
  decode 0x9000FFFFFFFF = .command (.dynq 0xFFFFFFFF) ∧
  decode 0xA0A000000000 = .command (.dync ⟨.native, 32⟩) ∧
  decode 0xFFFFFFFFFFFF = .illegal (.reservedOpcode 0xF) ∧
  decode 0x110300000005 = .illegal (.unusedFieldSet .pack) ∧
  decode 0x440000000000 = .illegal (.unusedFieldSet .tou32)

/-- Rules R54, R56: a command written down in the notation of rule R54 reads back as itself, and a program so written assembles to
its command words in order, comments and blank lines adding none. The spelling written (spaces, eight hexadecimal digits) is the
model's choice, log entry 10. -/
def Obligations.AssemblyReadsBack : Prop :=
  (∀ i : Instr, readLine (writeLine i) = .command i) ∧
  (∀ program : List Instr, assemble (program.map writeLine) = some (program.map encode)) ∧
  ∀ (i : Instr) (comment : List Char),
    readLine (writeLine i ++ ' ' :: ';' :: comment) = .command i ∧ readLine (' ' :: ';' :: comment) = .blank

/-! ### The response word -/

/-- Rule R50: where `respond` puts its fields. -/
def Obligations.RespondPlacesItsFields : Prop :=
  ∀ (status : BitVec 3) (present : Bool) (len : BitVec 3) (wtag : Byte) (data : Word),
    respStatus (respond status present len wtag data) = status ∧
    respPresent (respond status present len wtag data) = BitVec.ofBool present ∧
    respBit43 (respond status present len wtag data) = 0 ∧
    respLen (respond status present len wtag data) = len ∧
    respTag (respond status present len wtag data) = wtag ∧
    respData (respond status present len wtag data) = data

/-- Rule R50: every response has a status of at most 4, bit 43 zero and a `len` of at most 4, and only DYNQ and DYNC set
`present`. -/
def Obligations.EveryResponseIsWellFormed : Prop :=
  ∀ (i : Instr) (s t : State), exec i s = .next t →
    ∃ r, t.responses = s.responses ++ [r] ∧ (respStatus r).toNat ≤ 4 ∧ respBit43 r = 0 ∧ (respLen r).toNat ≤ 4 ∧
      (respPresent r ≠ 0 → (∃ n, i = .dynq n) ∨ ∃ tag, i = .dync tag)

/-! ### The width commands -/

/-- Rule R67, by the tag values of rule R13's table: `s1`..`s24`, `d1`..`d24`, `u8`, `u16`, `u32`, and every raw tag. -/
def Obligations.TagIsOkExactlyInItsClassRange : Prop :=
  ∀ t : Tag, tagOk t = true ↔
    (0x01 ≤ t.toBits.toNat ∧ t.toBits.toNat ≤ 0x18) ∨ (0x41 ≤ t.toBits.toNat ∧ t.toBits.toNat ≤ 0x58) ∨
    t.toBits.toNat ∈ [0x88, 0x90, 0xA0] ∨ 0xC0 ≤ t.toBits.toNat

/-- Rule R70, WBITS: its word, its answer (the tag's quantity field as a number), its one operand fault. -/
def Obligations.WbitsAnswersTheBitCount : Prop :=
  (∀ w : Word48, w.extractLsb' 44 4 = 0x8 →
    (w.extractLsb' 40 4 = 0 ∧ w.extractLsb' 0 32 = 0 →
      decode w = .command (.wbits ⟨WidthClass.ofBits (w.extractLsb' 38 2), w.extractLsb' 32 6⟩)) ∧
    (¬(w.extractLsb' 40 4 = 0 ∧ w.extractLsb' 0 32 = 0) → decode w = .illegal (.unusedFieldSet .wbits))) ∧
  ∀ (t : Tag) (s : State),
    (tagOk t = true →
      exec (.wbits t) s = .next { s with responses := s.responses ++ [t.q.setWidth 48] }) ∧
    (tagOk t = false →
      exec (.wbits t) s = .next { s with fseen := true, responses := s.responses ++ [0x400000000000] })

/-- Rules R71 and R68, DYNQ: its word; present with the tag `d<n>` for 1 to 24, absent and no fault for every other number. -/
def Obligations.DynqAnswersTheDynamicWidth : Prop :=
  (∀ w : Word48, w.extractLsb' 44 4 = 0x9 →
    (w.extractLsb' 32 12 = 0 → decode w = .command (.dynq (w.extractLsb' 0 32))) ∧
    (w.extractLsb' 32 12 ≠ 0 → decode w = .illegal (.unusedFieldSet .dynq))) ∧
  ∀ (n : Word) (s : State),
    (1 ≤ n.toNat ∧ n.toNat ≤ 24 → fromQuantity n.toNat = some ⟨.dynamic, n.extractLsb' 0 6⟩ ∧
      exec (.dynq n) s =
        .next { s with responses := s.responses ++ [respond 0 true 0 ((1 : BitVec 2) ++ n.extractLsb' 0 6) 0] }) ∧
    (¬(1 ≤ n.toNat ∧ n.toNat ≤ 24) → fromQuantity n.toNat = none ∧
      exec (.dynq n) s = .next { s with responses := s.responses ++ [0x000000000000] })

/-- Rules R72 and R69, DYNC: its word; the dynamic width of the tag's bit count, whatever its class, or absent; BAD_TAG. -/
def Obligations.DyncAnswersTheDynamicWidthOfATag : Prop :=
  (∀ w : Word48, w.extractLsb' 44 4 = 0xA →
    (w.extractLsb' 40 4 = 0 ∧ w.extractLsb' 0 32 = 0 →
      decode w = .command (.dync ⟨WidthClass.ofBits (w.extractLsb' 38 2), w.extractLsb' 32 6⟩)) ∧
    (¬(w.extractLsb' 40 4 = 0 ∧ w.extractLsb' 0 32 = 0) → decode w = .illegal (.unusedFieldSet .dync))) ∧
  ∀ (t : Tag) (s : State),
    (tagOk t = true → 1 ≤ t.q.toNat ∧ t.q.toNat ≤ 24 →
      exec (.dync t) s = .next { s with responses := s.responses ++ [respond 0 true 0 ((1 : BitVec 2) ++ t.q) 0] }) ∧
    (tagOk t = true → ¬(1 ≤ t.q.toNat ∧ t.q.toNat ≤ 24) →
      exec (.dync t) s = .next { s with responses := s.responses ++ [0x000000000000] }) ∧
    (tagOk t = false →
      exec (.dync t) s = .next { s with fseen := true, responses := s.responses ++ [0x400000000000] })

/-- Rule R74: the classes S and D behave identically in every command; the class is kept in the stored tag and nothing else
tells them apart. -/
def Obligations.StaticAndDynamicWidthsBehaveAlike : Prop :=
  ∀ (q : BitVec 6) (s : State),
    exec (.wbits ⟨.marker, q⟩) s = exec (.wbits ⟨.dynamic, q⟩) s ∧
    exec (.dync ⟨.marker, q⟩) s = exec (.dync ⟨.dynamic, q⟩) s ∧
    ∀ (cd : SlotId) (v : Word), ∃ t u, exec (.pack cd ⟨.marker, q⟩ v) s = .next t ∧ exec (.pack cd ⟨.dynamic, q⟩ v) s = .next u ∧
      t.responses = u.responses ∧ t.fseen = u.fseen ∧ (∀ j, j ≠ cd → t.slot j = u.slot j) ∧
      (t.fseen = s.fseen → ∀ i cs, i.source = some cs → (∀ j, i ≠ .rdgrp j) →
        ∀ t' u', exec i t = .next t' → exec i u = .next u' → t'.responses = u'.responses)

/-! ### Construction -/

/-- Rules R85, R83 and R87, PACK: its word; BAD_TAG; WIDTH_OVERFLOW; and for a good tag and a count of at most 32 the
container with the tag and the groups of rule R83, every other slot, FSEEN and the host's commands as before. -/
def Obligations.PackBuildsTheContainer : Prop :=
  (∀ w : Word48, w.extractLsb' 44 4 = 0x1 →
    (w.extractLsb' 40 2 = 0 → decode w = .command (.pack (SlotId.ofBits (w.extractLsb' 42 2))
      ⟨WidthClass.ofBits (w.extractLsb' 38 2), w.extractLsb' 32 6⟩ (w.extractLsb' 0 32))) ∧
    (w.extractLsb' 40 2 ≠ 0 → decode w = .illegal (.unusedFieldSet .pack))) ∧
  ∀ (cd : SlotId) (t : Tag) (v : Word) (s : State),
    (tagOk t = false →
      exec (.pack cd t v) s = .next { s with fseen := true, responses := s.responses ++ [0x400000000000] }) ∧
    (tagOk t = true → 32 < bits t →
      exec (.pack cd t v) s = .next { s with fseen := true, responses := s.responses ++ [0x800000000000] }) ∧
    (tagOk t = true → bits t ≤ 32 → ∃ g u, GroupView v (bits t) g ∧ exec (.pack cd t v) s = .next u ∧
      u.slot cd = some ⟨t, g⟩ ∧ (∀ j, j ≠ cd → u.slot j = s.slot j) ∧ u.fseen = s.fseen ∧
      u.commands = s.commands ∧ u.responses = s.responses ++ [0x000000000000])

/-- Rule R91, CLONE: its word; EMPTY_SLOT; and the copy, the source, the other slots, FSEEN and the host's commands as
before. -/
def Obligations.CloneCopiesTheContainer : Prop :=
  (∀ w : Word48, w.extractLsb' 44 4 = 0x6 →
    (w.extractLsb' 0 40 = 0 →
      decode w = .command (.clone (SlotId.ofBits (w.extractLsb' 42 2)) (SlotId.ofBits (w.extractLsb' 40 2)))) ∧
    (w.extractLsb' 0 40 ≠ 0 → decode w = .illegal (.unusedFieldSet .clone))) ∧
  ∀ (cd cs : SlotId) (s : State),
    (s.slot cs = none →
      exec (.clone cd cs) s = .next { s with fseen := true, responses := s.responses ++ [0x600000000000] }) ∧
    (∀ c, s.slot cs = some c → ∃ u, exec (.clone cd cs) s = .next u ∧
      u.slot cd = some c ∧ u.slot cs = some c ∧ (∀ j, j ≠ cd → u.slot j = s.slot j) ∧ u.fseen = s.fseen ∧
      u.commands = s.commands ∧ u.responses = s.responses ++ [0x000000000000])

/-- Rule R86: the groups depend on the value and the bit count only; with two tags of one count PACK writes the same groups
and two containers that differ in the tag alone. -/
def Obligations.GroupsDependOnTheBitCountOnly : Prop :=
  ∀ (cd : SlotId) (t₁ t₂ : Tag) (v : Word) (s : State),
    tagOk t₁ = true → tagOk t₂ = true → bits t₁ = bits t₂ → bits t₁ ≤ 32 →
    ∃ g u₁ u₂, exec (.pack cd t₁ v) s = .next u₁ ∧ exec (.pack cd t₂ v) s = .next u₂ ∧
      u₁.slot cd = some ⟨t₁, g⟩ ∧ u₂.slot cd = some ⟨t₂, g⟩ ∧ u₁.responses = u₂.responses

/-- Rule R84: the length, the full groups, the partial group as value bits over zero bits, and that the bits of the value
numbered `b` and above appear nowhere. -/
def Obligations.PackClosedForm : Prop :=
  ∀ (v : Word) (b : Nat), b ≤ 32 →
    ∃ g, pack v b = some g ∧ g.length = ngroups b ∧
      (∀ k < full b, g[k]? = some (v.extractLsb' (8 * k) 8)) ∧
      (rem b ≠ 0 → ∃ x, g[full b]? = some x ∧
        x.toNat = v.toNat / 2 ^ (8 * full b) % 2 ^ rem b * 2 ^ (8 - rem b)) ∧
      pack (BitVec.ofNat 32 (v.toNat % 2 ^ b)) b = some g

/-- Rule R88: PACK never faults because of the value, sets no flag for it, and does with it what it does with `value mod 2^b`. -/
def Obligations.PackTruncatesSilently : Prop :=
  ∀ (cd : SlotId) (t : Tag) (v : Word) (s : State), tagOk t = true → bits t ≤ 32 →
    ∃ u, exec (.pack cd t v) s = .next u ∧ u.fseen = s.fseen ∧ u.responses = s.responses ++ [0x000000000000] ∧
      exec (.pack cd t (BitVec.ofNat 32 (v.toNat % 2 ^ bits t))) s = .next u

/-- Rule R87: above 32 there is no group sequence, only a raw tag can have such a count, PACK faults WIDTH_OVERFLOW and writes
no slot, and the block carries on with the next command. -/
def Obligations.WidthAbove32HasNoGroups : Prop :=
  (∀ (v : Word) (b : Nat), 32 < b → pack v b = none) ∧
  ∀ t : Tag, tagOk t = true → 32 < bits t → t.cls = .raw ∧
    ∀ (cd : SlotId) (v : Word) (s : State) (next : Instr),
      ∃ u, exec (.pack cd t v) s = .next u ∧ u.responses = s.responses ++ [0x800000000000] ∧
        (∀ j, u.slot j = s.slot j) ∧ u.commands = s.commands ∧
        ∀ z, exec next s = .next z → ∃ z', exec next u = .next z' ∧ ∀ j, z'.slot j = z.slot j

/-- Rule R89: PACK with `r0` is accepted and makes a valid container with no group; a slot that holds it is not empty, and only
the raw tag `r0` has count 0. -/
def Obligations.WidthZeroMakesAValidEmptyContainer : Prop :=
  (∀ v : Word, pack v 0 = some []) ∧ (∀ t : Tag, tagOk t = true → bits t = 0 → t = ⟨.raw, 0⟩) ∧
  ∀ (cd : SlotId) (v : Word) (s : State), ∃ u, exec (.pack cd ⟨.raw, 0⟩ v) s = .next u ∧
    u.slot cd = some ⟨⟨.raw, 0⟩, []⟩ ∧ u.fseen = s.fseen ∧
    exec (.tobyte cd) u = .next { u with responses := u.responses ++ [0x000000000000] }

/-- Rule R90: widths 25 to 31 are accepted with a raw tag, build four groups of which the fourth is partial, and no S, D or U
tag has such a count. -/
def Obligations.RawWidths25To31BuildFourGroups : Prop :=
  ∀ t : Tag, 25 ≤ bits t → bits t ≤ 31 →
    (tagOk t = true ↔ t.cls = .raw) ∧
    ∀ (cd : SlotId) (v : Word) (s : State), t.cls = .raw → ∃ u, exec (.pack cd t v) s = .next u ∧ u.fseen = s.fseen ∧
      u.slot cd = some ⟨t, [v.extractLsb' 0 8, v.extractLsb' 8 8, v.extractLsb' 16 8,
        v.extractLsb' 24 8 <<< (32 - bits t)]⟩

/-! ### Extraction -/

/-- Rules R100 and R95, TOBYTES: its word; EMPTY_SLOT; and the bytes of the container with their number. -/
def Obligations.TobytesAnswersTheBytes : Prop :=
  (∀ w : Word48, w.extractLsb' 44 4 = 0x2 →
    (w.extractLsb' 42 2 = 0 ∧ w.extractLsb' 0 40 = 0 → decode w = .command (.tobytes (SlotId.ofBits (w.extractLsb' 40 2)))) ∧
    (¬(w.extractLsb' 42 2 = 0 ∧ w.extractLsb' 0 40 = 0) → decode w = .illegal (.unusedFieldSet .tobytes))) ∧
  ∀ (cs : SlotId) (s : State),
    (s.slot cs = none →
      exec (.tobytes cs) s = .next { s with fseen := true, responses := s.responses ++ [0x600000000000] }) ∧
    (∀ c, s.slot cs = some c → c.Sized → ∃ bytes, ByteView c.g (bits c.wt) bytes ∧
      exec (.tobytes cs) s = .next { s with responses := s.responses ++
        [respond 0 false (BitVec.ofNat 3 bytes.length) 0 (BitVec.ofNat 32 (leNat bytes))] })

/-- Rules R101 and R96, TOBYTE: its word; EMPTY_SLOT; and the first byte of the byte view, 0 when it is empty. -/
def Obligations.TobyteAnswersTheFirstByte : Prop :=
  (∀ w : Word48, w.extractLsb' 44 4 = 0x3 →
    (w.extractLsb' 42 2 = 0 ∧ w.extractLsb' 0 40 = 0 → decode w = .command (.tobyte (SlotId.ofBits (w.extractLsb' 40 2)))) ∧
    (¬(w.extractLsb' 42 2 = 0 ∧ w.extractLsb' 0 40 = 0) → decode w = .illegal (.unusedFieldSet .tobyte))) ∧
  ∀ (cs : SlotId) (s : State),
    (s.slot cs = none →
      exec (.tobyte cs) s = .next { s with fseen := true, responses := s.responses ++ [0x600000000000] }) ∧
    (∀ c, s.slot cs = some c → c.Sized → ∃ bytes, ByteView c.g (bits c.wt) bytes ∧
      exec (.tobyte cs) s = .next { s with responses := s.responses ++
        [match bytes with | [] => 0x000000000000 | x :: _ => x.setWidth 48] })

/-- Rules R102 and R97, TOU32: its word; EMPTY_SLOT; and the little-endian value of the byte view. -/
def Obligations.Tou32AnswersTheValue : Prop :=
  (∀ w : Word48, w.extractLsb' 44 4 = 0x4 →
    (w.extractLsb' 42 2 = 0 ∧ w.extractLsb' 0 40 = 0 → decode w = .command (.tou32 (SlotId.ofBits (w.extractLsb' 40 2)))) ∧
    (¬(w.extractLsb' 42 2 = 0 ∧ w.extractLsb' 0 40 = 0) → decode w = .illegal (.unusedFieldSet .tou32))) ∧
  ∀ (cs : SlotId) (s : State),
    (s.slot cs = none →
      exec (.tou32 cs) s = .next { s with fseen := true, responses := s.responses ++ [0x600000000000] }) ∧
    (∀ c, s.slot cs = some c → c.Sized → ∃ bytes, ByteView c.g (bits c.wt) bytes ∧
      exec (.tou32 cs) s = .next { s with responses := s.responses ++ [BitVec.ofNat 48 (leNat bytes)] })

/-- Rule R103, RDGRP: its word; EMPTY_SLOT; and the stored groups, their number and the stored tag. -/
def Obligations.RdgrpAnswersTheGroupsAndTheTag : Prop :=
  (∀ w : Word48, w.extractLsb' 44 4 = 0x5 →
    (w.extractLsb' 42 2 = 0 ∧ w.extractLsb' 0 40 = 0 → decode w = .command (.rdgrp (SlotId.ofBits (w.extractLsb' 40 2)))) ∧
    (¬(w.extractLsb' 42 2 = 0 ∧ w.extractLsb' 0 40 = 0) → decode w = .illegal (.unusedFieldSet .rdgrp))) ∧
  ∀ (cs : SlotId) (s : State),
    (s.slot cs = none →
      exec (.rdgrp cs) s = .next { s with fseen := true, responses := s.responses ++ [0x600000000000] }) ∧
    (∀ c, s.slot cs = some c → c.g.length ≤ 4 →
      exec (.rdgrp cs) s = .next { s with responses := s.responses ++
        [respond 0 false (BitVec.ofNat 3 c.g.length) c.wt.toBits (BitVec.ofNat 32 (leNat c.g))] })

/-- Rule R98: what the bytes of a packed value are, and that their little-endian value is `v mod 2^b`. -/
def Obligations.UnpackOfPackClosedForm : Prop :=
  ∀ (v : Word) (b : Nat) (g : List Byte), pack v b = some g →
    ∃ bytes, unpackBytes g b = some bytes ∧
      (∀ k < full b, bytes[k]? = some (v.extractLsb' (8 * k) 8)) ∧
      (rem b ≠ 0 → ∃ x, bytes[full b]? = some x ∧ x.toNat = v.toNat / 2 ^ (8 * full b) % 2 ^ rem b) ∧
      pad4 bytes = some (BitVec.ofNat 32 (v.toNat % 2 ^ b)) ∧ leNat bytes = v.toNat % 2 ^ b

/-- Rules R107 and R104: TOU32 after PACK answers `v mod 2^b` for every accepted width, hence `v` when it fits. -/
def Obligations.Tou32AfterPackIsTheValueModTwoToTheWidth : Prop :=
  ∀ (cd : SlotId) (t : Tag) (v : Word) (s : State), tagOk t = true → bits t ≤ 32 →
    ∃ u, exec (.pack cd t v) s = .next u ∧
      exec (.tou32 cd) u = .next { u with responses := u.responses ++ [BitVec.ofNat 48 (v.toNat % 2 ^ bits t)] } ∧
      (v.toNat < 2 ^ bits t →
        exec (.tou32 cd) u = .next { u with responses := u.responses ++ [v.setWidth 48] })

/-- Rule R106: for the widths 8, 16 and 32 (and 24) no shift happens, groups and bytes are the same sequence, and TOU32 answers
the value masked to the width. -/
def Obligations.ByteAlignedWidthsMaskTheValue : Prop :=
  ∀ (cd : SlotId) (t : Tag) (v : Word) (s : State), tagOk t = true →
    ∀ mask : Word, (bits t, mask) ∈ [(8, (0xFF : Word)), (16, 0xFFFF), (24, 0xFFFFFF), (32, 0xFFFFFFFF)] →
    ∃ g u, exec (.pack cd t v) s = .next u ∧ u.slot cd = some ⟨t, g⟩ ∧ unpackBytes g (bits t) = some g ∧
      exec (.tou32 cd) u = .next { u with responses := u.responses ++ [(v &&& mask).setWidth 48] }

/-- Rule R109: TOBYTE after PACK answers `(v mod 2^b) AND 0xFF`. -/
def Obligations.TobyteAfterPackIsTheLowByteOfTheValue : Prop :=
  ∀ (cd : SlotId) (t : Tag) (v : Word) (s : State), tagOk t = true → bits t ≤ 32 →
    ∃ u, exec (.pack cd t v) s = .next u ∧
      exec (.tobyte cd) u =
        .next { u with responses := u.responses ++ [BitVec.ofNat 48 (v.toNat % 2 ^ bits t % 256)] }

/-- Rule R105: the `len` TOBYTES and RDGRP answer is the least number of bytes that holds the width. -/
def Obligations.LengthIsTheMinimalFootprint : Prop :=
  ∀ (cs : SlotId) (s : State) (c : Container), s.slot cs = some c → c.Sized →
    ∃ r r', exec (.tobytes cs) s = .next { s with responses := s.responses ++ [r] } ∧
      exec (.rdgrp cs) s = .next { s with responses := s.responses ++ [r'] } ∧
      (respLen r).toNat = (bits c.wt + 7) / 8 ∧ respLen r' = respLen r

/-- Rule R108: TOBYTES and TOU32 on the same state put the same number in `data` and differ in `len` alone, the number of groups
against 0. -/
def Obligations.TobytesAndTou32GiveTheSameData : Prop :=
  ∀ (cs : SlotId) (s t u : State), exec (.tobytes cs) s = .next t → exec (.tou32 cs) s = .next u →
    ∃ r r', t = { u with responses := s.responses ++ [r] } ∧ u.responses = s.responses ++ [r'] ∧
      respData r = respData r' ∧ respStatus r = respStatus r' ∧ respPresent r = respPresent r' ∧
      respBit43 r = respBit43 r' ∧ respTag r = respTag r' ∧ respLen r' = 0 ∧
      ∀ c, s.slot cs = some c → (respLen r).toNat = ngroups (bits c.wt)

/-- Rules R12, R25: a container with at most 32 bits has the right number of groups and zero padding exactly when some value
packs to its groups. -/
def Obligations.WellFormedContainersAreThePackedOnes : Prop :=
  ∀ c : Container, c.Sized ∧ c.PaddedWithZeros ↔ c.Packed

/-- Rules R32 and R31, bit by bit: in a partial last group the `rem` value bits stand at stream positions 0 to `rem-1` (numeric
bit `7-i` is position `i`), the most significant first, zeros after; in the byte view the same bits stand at the low end; full
groups are the same in both views. -/
def Obligations.PartialGroupIsLeftAlignedAndItsByteRightAligned : Prop :=
  ∀ (v : Word) (b : Nat) (g bytes : List Byte), pack v b = some g → unpackBytes g b = some bytes →
    (∀ k < full b, g[k]? = bytes[k]?) ∧
    (rem b ≠ 0 → ∃ x y, g[full b]? = some x ∧ bytes[full b]? = some y ∧ ∀ i < 8,
      x.getLsbD (7 - i) = (decide (i < rem b) && v.getLsbD (8 * full b + (rem b - 1 - i))) ∧
      y.getLsbD i = (decide (i < rem b) && v.getLsbD (8 * full b + i)))

/-- The model's own stop (log entry 4), outside the domain on which rules R95 and R97 define the functions: TOBYTES, TOBYTE and
TOU32 on a slot whose groups do not fit its tag, and RDGRP on a slot of more than four groups. By rule R25 no reachable state
has such a slot. -/
def Obligations.ExtractionOfAMalformedContainerStopsByName : Prop :=
  ∀ (cs : SlotId) (s : State) (c : Container), s.slot cs = some c →
    (¬c.Sized → exec (.tobytes cs) s = .fault .malformedContainer ∧ exec (.tobyte cs) s = .fault .malformedContainer ∧
      exec (.tou32 cs) s = .fault .malformedContainer) ∧
    (4 < c.g.length → exec (.rdgrp cs) s = .fault .malformedContainer)

/-! ### Faults -/

/-- Rule R119: every command that reads a slot faults EMPTY_SLOT while the slot has `V = 0`; a slot gets a container only as
the destination of a PACK or CLONE, and no command returns a slot to `V = 0`; a command that reads a slot with `V = 1`, a
width-0 container's too, raises no fault. -/
def Obligations.EmptySlotFaultsUntilTheSlotIsWritten : Prop :=
  (∀ (i : Instr) (cs : SlotId) (s : State), i.source = some cs → s.slot cs = none →
    exec i s = .next { s with fseen := true, responses := s.responses ++ [0x600000000000] }) ∧
  (∀ (i : Instr) (cs : SlotId) (s t : State), i.source = some cs → s.slot cs ≠ none → exec i s = .next t →
    ∃ r, t.responses = s.responses ++ [r] ∧ respStatus r = 0) ∧
  ∀ (i : Instr) (s t : State) (j : SlotId), exec i s = .next t →
    (s.slot j ≠ none → t.slot j ≠ none) ∧
    (s.slot j = none → t.slot j ≠ none → (∃ tag v, i = .pack j tag v) ∨ ∃ cs, i = .clone j cs)

/-- Rule R116: a command that faults writes no slot, sets FSEEN, answers a word that is zero but for its status, and leaves the
block ready: the next step executes the next command as if the one that faulted had not been there. -/
def Obligations.FaultWritesNoSlotAndSetsTheFlag : Prop :=
  ∀ (s t : State) (w : Word48) (rest : List Word48) (r : Word48),
    s.commands = w :: rest → step s = .next t → t.responses = s.responses ++ [r] → respStatus r ≠ 0 →
    (∀ j, t.slot j = s.slot j) ∧ t.fseen = true ∧ r.extractLsb' 0 45 = 0 ∧ t.commands = rest ∧
    ∀ u, step { s with commands := rest } = .next u → ∃ u' answers, step t = .next u' ∧ (∀ j, u'.slot j = u.slot j) ∧
      u'.commands = u.commands ∧ u.responses = s.responses ++ answers ∧ u'.responses = t.responses ++ answers

/-- Rules R115, R118, R119, R120, R122: the status of every response is the first fault condition that holds, in the order
ILLEGAL_CMD, BAD_TAG, EMPTY_SLOT, WIDTH_OVERFLOW, and 0 when none does. -/
def Obligations.StatusIsTheFirstFaultConditionThatHolds : Prop :=
  ∀ (s : State) (w : Word48) (rest : List Word48), s.Inv → s.commands = w :: rest →
    ∃ t r, step s = .next t ∧ t.responses = s.responses ++ [r] ∧ respStatus r = faultCode w s ∧
      (respStatus r ≠ 0 → r.extractLsb' 0 45 = 0)

/-- Rule R121: an absent dynamic width, a value too large for its width, width 0, widths 25 to 31 through a raw tag,
overwriting a valid slot, and CLONE onto itself are no faults. No raw tag is ill-formed (BAD_TAG); of those above 32 bits PACK
faults WIDTH_OVERFLOW (rule R120). -/
def Obligations.WhatIsNotAFault : Prop :=
  (∀ (n : Word) (s : State), ∃ r, exec (.dynq n) s = .next { s with responses := s.responses ++ [r] } ∧ respStatus r = 0 ∧
    (n.toNat = 0 ∨ 24 < n.toNat → respPresent r = 0)) ∧
  (∀ (t : Tag) (s : State), tagOk t = true → ∃ r, exec (.dync t) s = .next { s with responses := s.responses ++ [r] } ∧
    respStatus r = 0 ∧ (bits t = 0 ∨ 24 < bits t → respPresent r = 0)) ∧
  (∀ (cd : SlotId) (t : Tag) (v : Word) (s : State), tagOk t = true → bits t ≤ 32 → ∃ u, exec (.pack cd t v) s = .next u ∧
    u.fseen = s.fseen ∧ u.responses = s.responses ++ [0x000000000000]) ∧
  (∀ q : BitVec 6, tagOk ⟨.raw, q⟩ = true) ∧
  (∀ (c : SlotId) (s : State), s.slot c ≠ none →
    exec (.clone c c) s = .next { s with responses := s.responses ++ [0x000000000000] })

/-! ### Frames and rules about the whole command set -/

/-- Rules R10, R15, R18 and R50, the frame of every command, when exec gives a next state: every slot but the destination of
PACK or CLONE is unchanged (so all four for TOBYTES, TOBYTE, TOU32, RDGRP, WBITS, DYNQ, DYNC), FSEEN is unchanged unless the
status of the answer is not 0, the host's commands are unchanged, and one response is added. -/
def Obligations.CommandFrame : Prop :=
  ∀ (i : Instr) (s t : State), exec i s = .next t →
    (∀ j, i.dest ≠ some j → t.slot j = s.slot j) ∧ t.commands = s.commands ∧
    ∃ r, t.responses = s.responses ++ [r] ∧ t.fseen = (s.fseen || decide (respStatus r ≠ 0)) ∧
      (respStatus r ≠ 0 → ∀ j, t.slot j = s.slot j)

/-- Rule R26: after CLONE the two slots hold equal containers, and no later command that writes the one changes the other. -/
def Obligations.CloneIsIndependentOfItsSource : Prop :=
  ∀ (cd cs : SlotId) (s t : State) (c : Container), s.slot cs = some c → exec (.clone cd cs) s = .next t →
    t.slot cd = some c ∧ t.slot cs = some c ∧
    ∀ (i : Instr) (u : State), exec i t = .next u →
      (i.dest ≠ some cd → u.slot cd = some c) ∧ (i.dest ≠ some cs → u.slot cs = some c)

/-- Rule R37: every command is idempotent (done again at once it answers the same response and changes nothing else), the seven
that write no slot leave all slots and answer the same whenever the slots are the same, and FSEEN never goes back to 0. -/
def Obligations.RepeatingACommandChangesNothingMore : Prop :=
  ∀ (i : Instr) (s t : State), exec i s = .next t →
    (∃ r, t.responses = s.responses ++ [r] ∧ exec i t = .next { t with responses := t.responses ++ [r] }) ∧
    (i.dest = none → (∀ j, t.slot j = s.slot j) ∧ ∀ s' t', (∀ j, s'.slot j = s.slot j) → exec i s' = .next t' →
      ∃ r, t.responses = s.responses ++ [r] ∧ t'.responses = s'.responses ++ [r]) ∧
    (s.fseen = true → t.fseen = true)

/-- Rules R21, R23, R40: what a command answers and writes depends on the command and its source slot only: in any two states
that agree on that slot (in any two states at all, for a command that reads none) it answers the same response and, where it
writes a slot, writes the same. -/
def Obligations.CommandDependsOnItsSourceSlotOnly : Prop :=
  ∀ (i : Instr) (s s' t t' : State), (∀ cs, i.source = some cs → s.slot cs = s'.slot cs) →
    exec i s = .next t → exec i s' = .next t' →
    ∃ r, t.responses = s.responses ++ [r] ∧ t'.responses = s'.responses ++ [r] ∧
      ∀ cd, i.dest = some cd → respStatus r = 0 → t.slot cd = t'.slot cd

/-- Rule R18: FSEEN is 0 after reset, a command sets it exactly when it ends in a fault, none clears it, and none reads it:
with FSEEN the other way the command does the same. -/
def Obligations.FlagIsStickyAndUnread : Prop :=
  State.reset.fseen = false ∧
  ∀ (i : Instr) (s t : State), exec i s = .next t →
    (∃ r, t.responses = s.responses ++ [r] ∧ (t.fseen = true ↔ s.fseen = true ∨ respStatus r ≠ 0)) ∧
    ∀ f : Bool, ∃ f', exec i { s with fseen := f } = .next { t with fseen := f' } ∧ (f = true → f' = true)
end

