-- ==== Sys2Proof/Laws/Assembly.lean ====
section
/-! SUPPORT. The notation of rule R54, operand by operand: what is written down reads back, and holds none of the characters at
which a line is cut. -/

namespace Sys2Proof.Machine

/-- Text that holds no space, comma or semicolon: it stands in a line as one operand. -/
def OneOperand (cs : List Char) : Prop := ∀ c ∈ cs, c ≠ ' ' ∧ c ≠ ',' ∧ c ≠ ';'

theorem digitValue_hexDigit : ∀ d : BitVec 4, digitValue (hexDigit d) = some d.toNat := by decide

theorem hexDigit_ne : ∀ d : BitVec 4, hexDigit d ≠ ' ' ∧ hexDigit d ≠ ',' ∧ hexDigit d ≠ ';' := by decide

/-- A decimal digit reads as itself and is no character at which a line is cut. -/
theorem decimalDigit : ∀ d < 10, digitValue (Char.ofNat (48 + d)) = some d ∧
    Char.ofNat (48 + d) ≠ ' ' ∧ Char.ofNat (48 + d) ≠ ',' ∧ Char.ofNat (48 + d) ≠ ';' := by decide

theorem readWord_writeWord (v : Word) : readWord (writeWord v) = some v := by
  have hv := v.isLt
  have h (n : Nat) : n % 16 < 16 := Nat.mod_lt _ (by decide)
  simp [readWord, writeWord, readNumeral, readDigits, digitValue_hexDigit, h, BitVec.extractLsb'_toNat,
    Nat.shiftRight_eq_div_pow]
  constructor
  · omega
  · apply BitVec.eq_of_toNat_eq
    rw [BitVec.toNat_ofNat]
    omega

theorem oneOperand_writeWord (v : Word) : OneOperand (writeWord v) := by
  intro x hx
  simp only [writeWord, List.mem_cons, List.not_mem_nil, or_false] at hx
  rcases hx with rfl | rfl | rfl | rfl | rfl | rfl | rfl | rfl | rfl | rfl <;> first | decide | exact hexDigit_ne _

theorem readSlot_slotName (i : SlotId) : readSlot (slotName i) = some i := by cases i <;> decide

theorem oneOperand_slotName (i : SlotId) : OneOperand (slotName i) := by
  intro x hx
  cases i <;> simp only [slotName, List.mem_cons, List.not_mem_nil, or_false] at hx <;> rcases hx with rfl | rfl <;> decide

theorem find_classLetter (k : WidthClass) :
    [WidthClass.marker, .dynamic, .native, .raw].find? (fun j => classLetter j = classLetter k) = some k := by
  cases k <;> decide

theorem readTag_writeTag (t : Tag) : readTag (writeTag t) = some t := by
  obtain ⟨k, q⟩ := t
  have hq := q.isLt
  by_cases h : q.toNat < 10
  · simp [readTag, writeTag, h, find_classLetter, readNumeral, readDigits, (decimalDigit _ h).1]
    omega
  · have h1 : q.toNat / 10 < 10 := by omega
    have h2 : q.toNat % 10 < 10 := Nat.mod_lt _ (by decide)
    have h3 : q.toNat / 10 * 10 + q.toNat % 10 = q.toNat := by omega
    simp [readTag, writeTag, h, find_classLetter, readNumeral, readDigits, (decimalDigit _ h1).1, (decimalDigit _ h2).1, h1, h2,
      h3]
    omega

theorem oneOperand_writeTag (t : Tag) : OneOperand (writeTag t) := by
  obtain ⟨k, q⟩ := t
  have hq := q.isLt
  have hl : classLetter k ≠ ' ' ∧ classLetter k ≠ ',' ∧ classLetter k ≠ ';' := by cases k <;> decide
  intro x hx
  by_cases h : q.toNat < 10
  · simp only [writeTag, h, if_true, List.mem_cons, List.not_mem_nil, or_false] at hx
    obtain rfl | rfl := hx
    · exact hl
    · exact (decimalDigit _ h).2
  · simp only [writeTag, h, if_false, List.mem_cons, List.not_mem_nil, or_false] at hx
    obtain rfl | rfl | rfl := hx
    · exact hl
    · exact (decimalDigit _ (by omega)).2
    · exact (decimalDigit _ (Nat.mod_lt _ (by decide))).2

/-- Trimming leaves one operand as it is, and takes off a space before it. -/
theorem trim_of_oneOperand {cs : List Char} (h : OneOperand cs) : trim cs = cs ∧ trim (' ' :: cs) = cs := by
  have key (l : List Char) (hl : OneOperand l) : l.dropWhile (· = ' ') = l := by
    cases l with
    | nil => rfl
    | cons a l => simp [List.dropWhile, (hl a (by simp)).1]
  have h2 := key cs.reverse fun c hc => h c (List.mem_reverse.1 hc)
  simp [trim, key cs h, h2, List.dropWhile]

theorem cutAtCommas_of_oneOperand {cs : List Char} (h : OneOperand cs) : cutAtCommas cs = [cs] := by
  induction cs with
  | nil => rfl
  | cons a l ih => simp [cutAtCommas, ih fun x hx => h x (by simp [hx]), (h a (by simp)).2.1]

theorem cutAtCommas_append {cs rest : List Char} (h : OneOperand cs) :
    cutAtCommas (cs ++ ',' :: rest) = cs :: cutAtCommas rest := by
  induction cs with
  | nil => simp [cutAtCommas]
  | cons a l ih => simp [cutAtCommas, ih fun x hx => h x (by simp [hx]), (h a (by simp)).2.1]

end Sys2Proof.Machine
end

