-- ==== Sys2Proof/Laws/Datapath.lean ====
section
/-! SUPPORT. What the functions of the datapath do, said once each: the arithmetic of widths, the bytes of a value, `pack`,
`unpack_bytes` and the little-endian buffer. -/

namespace Sys2Proof.Machine

/-! ### Widths -/

/-- `b = 8 * full(b) + rem(b)` and `rem(b) <= 7` (rule R81). -/
theorem full_rem (b : Nat) : b = 8 * full b + rem b ∧ rem b < 8 := by
  simp only [full, rem, Config.groupBits]
  omega

/-- `ngroups(b) = ceil(b / 8)` (rule R82). -/
theorem ngroups_eq_ceil (b : Nat) : ngroups b = (b + 7) / 8 := by
  unfold ngroups full rem Config.groupBits
  by_cases h : b % 8 = 0
  · rw [if_neg (not_not.2 h)]
    omega
  · rw [if_pos h]
    omega

theorem ngroups_le_four {b : Nat} (h : b ≤ 32) : ngroups b ≤ 4 := by
  rw [ngroups_eq_ceil]
  omega

theorem full_le_four {b : Nat} (h : b ≤ 32) : full b ≤ 4 := by
  simp only [full, Config.groupBits]
  omega

theorem full_lt_four {b : Nat} (h : b ≤ 32) (hr : rem b ≠ 0) : full b < 4 := by
  simp only [full, rem, Config.groupBits] at *
  omega

/-! ### The bytes of a value -/

@[simp] theorem length_leBytes (v : Word) : (leBytes v).length = 4 := rfl

theorem leBytes_getElem? (v : Word) {k : Nat} (h : k < 4) : (leBytes v)[k]? = some (v.extractLsb' (8 * k) 8) := by
  match k, h with
  | 0, _ | 1, _ | 2, _ | 3, _ => rfl

/-- Shifting a byte up and down again keeps its low bits: the step that makes extraction undo construction (rule R98). -/
theorem shr8_shl8 (x : Byte) {r : Nat} (h : r ≤ 8) : (shr8 (shl8 x (8 - r)) (8 - r)).toNat = x.toNat % 2 ^ r := by
  have hx := x.isLt
  simp only [shr8, shl8, BitVec.toNat_ushiftRight, BitVec.toNat_shiftLeft, Nat.shiftLeft_eq, Nat.shiftRight_eq_div_pow]
  interval_cases r <;> omega

/-! ### pack -/

theorem pack_of_lt {v : Word} {b : Nat} (h : 32 < b) : pack v b = none := by
  simp [pack, Config.maxWidth, Nat.not_le.2 h]

/-- `pack` has an answer exactly up to width 32 (rule R87). -/
theorem pack_isSome_iff {v : Word} {b : Nat} : (∃ g, pack v b = some g) ↔ b ≤ 32 := by
  unfold pack
  split
  · simp only [‹b ≤ Config.maxWidth›, iff_true]
    split <;> exact ⟨_, rfl⟩
  · simp_all

/-- Everything `pack` can answer: the groups of rule R83, element by element. -/
theorem pack_spec {v : Word} {b : Nat} {g : List Byte} (h : pack v b = some g) :
    b ≤ 32 ∧ g.length = ngroups b ∧ (∀ k < full b, g[k]? = some (v.extractLsb' (8 * k) 8)) ∧
      (rem b ≠ 0 → g[full b]? = some (shl8 (v.extractLsb' (8 * full b) 8) (8 - rem b))) := by
  have hb := pack_isSome_iff.1 ⟨g, h⟩
  have hf := full_le_four hb
  simp only [pack, Config.maxWidth, hb, if_true] at h
  by_cases hr : rem b = 0
  · simp only [hr, if_true, Option.some.injEq] at h
    subst h
    refine ⟨hb, by simp [ngroups, hr, hf], fun k hk => ?_, fun h => absurd hr h⟩
    rw [List.getElem?_take_of_lt hk, leBytes_getElem? v (by omega)]
  · have hlt := full_lt_four hb hr
    simp only [hr, if_false, Option.some.injEq, leBytes_getElem? v hlt] at h
    subst h
    have hlen : ((leBytes v).take (full b)).length = full b := by simp [hf]
    refine ⟨hb, by simp [ngroups, hr, hf], fun k hk => ?_, fun _ => ?_⟩
    · rw [List.getElem?_append_left (by omega), List.getElem?_take_of_lt hk, leBytes_getElem? v (by omega)]
    · rw [List.getElem?_append_right (by omega), hlen]
      simp

/-! ### unpack_bytes -/

theorem unpackBytes_isSome_iff {g : List Byte} {b : Nat} :
    (∃ bytes, unpackBytes g b = some bytes) ↔ b ≤ 32 ∧ g.length = ngroups b := by
  unfold unpackBytes
  split
  · rename_i h
    simp only [h, and_self, iff_true]
    split <;> exact ⟨_, rfl⟩
  · simp_all

/-- Everything `unpack_bytes` can answer: the bytes of rule R95, element by element. -/
theorem unpackBytes_spec {g : List Byte} {b : Nat} {bytes : List Byte} (h : unpackBytes g b = some bytes) :
    b ≤ 32 ∧ g.length = ngroups b ∧ bytes.length = ngroups b ∧ (∀ k < full b, bytes[k]? = g[k]?) ∧
      (rem b ≠ 0 → ∃ x, g[full b]? = some x ∧ bytes[full b]? = some (shr8 x (8 - rem b))) := by
  obtain ⟨hb, hlen⟩ := unpackBytes_isSome_iff.1 ⟨bytes, h⟩
  simp only [unpackBytes, Config.maxWidth, hb, hlen, and_self, if_true] at h
  by_cases hr : rem b = 0
  · simp only [hr, if_true, Option.some.injEq] at h
    subst h
    have hn : ngroups b = full b := by simp [ngroups, hr]
    refine ⟨hb, hlen, by simp [hlen, hn], fun k hk => List.getElem?_take_of_lt hk, fun h => absurd hr h⟩
  · have hn : ngroups b = full b + 1 := by simp [ngroups, hr]
    obtain ⟨x, hx⟩ : ∃ x, g[full b]? = some x := ⟨_, List.getElem?_eq_getElem (by omega)⟩
    simp only [hr, if_false, Option.some.injEq, hx] at h
    subst h
    have ht : (g.take (full b)).length = full b := by simp; omega
    refine ⟨hb, hlen, by simp [ht, hn], fun k hk => ?_, fun _ => ⟨x, hx, ?_⟩⟩
    · rw [List.getElem?_append_left (by omega), List.getElem?_take_of_lt hk]
    · rw [List.getElem?_append_right (by omega), ht]
      simp

/-! ### The little-endian buffer -/

theorem leNat_lt (bytes : List Byte) : leNat bytes < 256 ^ bytes.length := by
  induction bytes with
  | nil => simp [leNat]
  | cons x xs ih =>
    have := x.isLt
    simp only [leNat, List.length_cons, Nat.pow_succ]
    omega

/-- The buffer of a sequence of up to four bytes, as a number (rule R97). -/
theorem toNat_leBuffer {bytes : List Byte} (h : bytes.length ≤ 4) : (leBuffer bytes).toNat = leNat bytes := by
  induction bytes with
  | nil => rfl
  | cons x xs ih =>
    have hx := x.isLt
    simp only [List.length_cons] at h
    have hlt : leNat xs < 256 ^ 3 := (leNat_lt xs).trans_le (Nat.pow_le_pow_right (by decide) (by omega))
    have hmod : (leBuffer xs <<< 8).toNat = leNat xs <<< 8 := by
      rw [BitVec.toNat_shiftLeft, ih (by omega), Nat.shiftLeft_eq]
      exact Nat.mod_eq_of_lt (by omega)
    rw [leBuffer, BitVec.toNat_or, hmod, BitVec.toNat_setWidth, Nat.mod_eq_of_lt (by omega), Nat.or_comm,
      ← Nat.shiftLeft_add_eq_or_of_lt (by simpa using hx), Nat.shiftLeft_eq, leNat]
    omega

/-- `pad4` of a sequence of up to four bytes. -/
theorem pad4_eq {bytes : List Byte} (h : bytes.length ≤ 4) : pad4 bytes = some (BitVec.ofNat 32 (leNat bytes)) := by
  simp only [pad4, Config.maxGroups, h, if_true, Option.some.injEq]
  apply BitVec.eq_of_toNat_eq
  rw [toNat_leBuffer h, BitVec.toNat_ofNat, Nat.mod_eq_of_lt]
  exact (leNat_lt bytes).trans_le ((Nat.pow_le_pow_right (by decide) h).trans (by decide))

theorem pad4_isSome_iff {bytes : List Byte} : (∃ d, pad4 bytes = some d) ↔ bytes.length ≤ 4 := by
  simp [pad4, Config.maxGroups]

end Sys2Proof.Machine
end

