-- ==== Sys2Proof/Laws/Decode.lean ====
section
/-! SUPPORT. The command word as its fields: reading a field of an assembled word, assembling the fields of a word, and the
mask-and-match test of a row of the opcode map as a statement about fields (rules R45 to R47). -/

namespace Sys2Proof

/-- The 8-bit tag operand as it stands, `CW[39:32]`. -/
def tagBitsField (w : Word48) : Byte := w.extractLsb' 32 8

/-! ### The fields of an assembled word -/

section
variable (op : BitVec 4) (cd cs : BitVec 2) (tag : Byte) (imm : Word)

/-- A field of an assembled word that lies above `imm` is a field of the rest. -/
theorem extract_commandWord_of_le {start len : Nat} (h : 32 ≤ start) :
    (commandWord op cd cs tag imm).extractLsb' start len = (op ++ cd ++ cs ++ tag).extractLsb' (start - 32) len :=
  BitVec.extractLsb'_append_eq_of_le (xhi := op ++ cd ++ cs ++ tag) (xlo := imm) h

@[simp] theorem opField_commandWord : opField (commandWord op cd cs tag imm) = op := by
  rw [opField, extract_commandWord_of_le _ _ _ _ _ (by decide), BitVec.extractLsb'_append_eq_of_le (by decide),
    BitVec.extractLsb'_append_eq_of_le (by decide), BitVec.extractLsb'_append_eq_of_le (by decide)]
  simp
@[simp] theorem cdField_commandWord : cdField (commandWord op cd cs tag imm) = cd := by
  rw [cdField, extract_commandWord_of_le _ _ _ _ _ (by decide), BitVec.extractLsb'_append_eq_of_le (by decide),
    BitVec.extractLsb'_append_eq_of_le (by decide), BitVec.extractLsb'_append_eq_of_add_le (by decide)]
  simp
@[simp] theorem csField_commandWord : csField (commandWord op cd cs tag imm) = cs := by
  rw [csField, extract_commandWord_of_le _ _ _ _ _ (by decide), BitVec.extractLsb'_append_eq_of_le (by decide),
    BitVec.extractLsb'_append_eq_of_add_le (by decide)]
  simp
@[simp] theorem tagBitsField_commandWord : tagBitsField (commandWord op cd cs tag imm) = tag := by
  rw [tagBitsField, extract_commandWord_of_le _ _ _ _ _ (by decide), BitVec.extractLsb'_append_eq_of_add_le (by decide)]
  simp
@[simp] theorem immField_commandWord : immField (commandWord op cd cs tag imm) = imm :=
  (BitVec.extractLsb'_append_eq_of_add_le (xhi := op ++ cd ++ cs ++ tag) (xlo := imm) (by decide)).trans (by simp)

end

/-- Every word is the assembly of its fields. -/
theorem commandWord_fields (w : Word48) :
    commandWord (opField w) (cdField w) (csField w) (tagBitsField w) (immField w) = w := by
  unfold commandWord opField cdField csField tagBitsField immField
  rw [BitVec.extractLsb'_append_extractLsb'_eq_extractLsb' (by decide),
    BitVec.extractLsb'_append_extractLsb'_eq_extractLsb' (by decide),
    BitVec.extractLsb'_append_extractLsb'_eq_extractLsb' (by decide)]
  exact (BitVec.extractLsb'_append_extractLsb'_eq_extractLsb' (by decide)).trans (by simp)

theorem commandWord_and (op op' : BitVec 4) (cd cd' cs cs' : BitVec 2) (tag tag' : Byte) (imm imm' : Word) :
    commandWord op cd cs tag imm &&& commandWord op' cd' cs' tag' imm' =
      commandWord (op &&& op') (cd &&& cd') (cs &&& cs') (tag &&& tag') (imm &&& imm') := by
  unfold commandWord
  iterate 4 erw [BitVec.and_append]

theorem commandWord_inj {op op' : BitVec 4} {cd cd' cs cs' : BitVec 2} {tag tag' : Byte} {imm imm' : Word} :
    commandWord op cd cs tag imm = commandWord op' cd' cs' tag' imm' ↔
      op = op' ∧ cd = cd' ∧ cs = cs' ∧ tag = tag' ∧ imm = imm' := by
  constructor
  · intro h
    have ho := congrArg opField h
    have hd := congrArg cdField h
    have hs := congrArg csField h
    have ht := congrArg tagBitsField h
    have hi := congrArg immField h
    simp only [opField_commandWord, cdField_commandWord, csField_commandWord, tagBitsField_commandWord,
      immField_commandWord] at ho hd hs ht hi
    exact ⟨ho, hd, hs, ht, hi⟩
  · rintro ⟨rfl, rfl, rfl, rfl, rfl⟩
    rfl

/-! ### The tag operand -/

/-- The class bits of a tag's code. -/
theorem clsField_eq (w : Word48) : clsField w = (tagBitsField w).extractLsb' 6 2 := by
  apply BitVec.eq_of_toNat_eq
  simp only [clsField, tagBitsField, BitVec.extractLsb'_toNat, Nat.shiftRight_eq_div_pow]
  omega

/-- The quantity bits of a tag's code. -/
theorem qField_eq (w : Word48) : qField w = (tagBitsField w).extractLsb' 0 6 := by
  apply BitVec.eq_of_toNat_eq
  simp only [qField, tagBitsField, BitVec.extractLsb'_toNat, Nat.shiftRight_eq_div_pow]
  omega

@[simp] theorem SlotId.ofBits_toBits (i : SlotId) : SlotId.ofBits i.toBits = i := by cases i <;> rfl
@[simp] theorem SlotId.toBits_ofBits (b : BitVec 2) : (SlotId.ofBits b).toBits = b := by revert b; decide
@[simp] theorem WidthClass.ofBits_toBits (c : WidthClass) : WidthClass.ofBits c.toBits = c := by cases c <;> rfl
@[simp] theorem WidthClass.toBits_ofBits (b : BitVec 2) : (WidthClass.ofBits b).toBits = b := by revert b; decide

@[simp] theorem Tag.toBits_cls (t : Tag) : t.toBits.extractLsb' 6 2 = t.cls.toBits := by
  unfold Tag.toBits
  erw [BitVec.extractLsb'_append_eq_of_le (by decide)]
  simp
@[simp] theorem Tag.toBits_q (t : Tag) : t.toBits.extractLsb' 0 6 = t.q := by
  unfold Tag.toBits
  erw [BitVec.extractLsb'_append_eq_of_add_le (by decide)]
  simp

/-- The number of a tag's code: the class number above the quantity. -/
theorem Tag.toNat_toBits (t : Tag) : t.toBits.toNat = t.cls.toBits.toNat * 64 + t.q.toNat := by
  unfold Tag.toBits
  erw [BitVec.toNat_append]
  rw [← Nat.shiftLeft_add_eq_or_of_lt t.q.isLt, Nat.shiftLeft_eq]

theorem tagField_of_tagBits {w : Word48} {t : Tag} (h : tagBitsField w = t.toBits) : tagField w = t := by
  simp [tagField, clsField_eq, qField_eq, h]

@[simp] theorem tagField_commandWord (op : BitVec 4) (cd cs : BitVec 2) (t : Tag) (imm : Word) :
    tagField (commandWord op cd cs t.toBits imm) = t := tagField_of_tagBits (by simp)

theorem Tag.toBits_tagField (w : Word48) : (tagField w).toBits = tagBitsField w := by
  simp only [Tag.toBits, tagField, WidthClass.toBits_ofBits, clsField_eq, qField_eq]
  erw [BitVec.extractLsb'_append_extractLsb'_eq_extractLsb' (by decide)]
  simp

/-! ### Neighbouring fields read as one -/

theorem tag_imm_zero_iff (w : Word48) : w.extractLsb' 0 40 = 0 ↔ tagBitsField w = 0 ∧ immField w = 0 := by
  simp only [← BitVec.toNat_inj, tagBitsField, immField, BitVec.extractLsb'_toNat, Nat.shiftRight_eq_div_pow,
    BitVec.ofNat_eq_ofNat, BitVec.toNat_ofNat, Nat.zero_mod]
  omega

theorem cd_cs_zero_iff (w : Word48) : w.extractLsb' 40 4 = 0 ↔ cdField w = 0 ∧ csField w = 0 := by
  simp only [← BitVec.toNat_inj, cdField, csField, BitVec.extractLsb'_toNat, Nat.shiftRight_eq_div_pow,
    BitVec.ofNat_eq_ofNat, BitVec.toNat_ofNat, Nat.zero_mod]
  omega

theorem cd_cs_tag_zero_iff (w : Word48) :
    w.extractLsb' 32 12 = 0 ↔ cdField w = 0 ∧ csField w = 0 ∧ tagBitsField w = 0 := by
  simp only [← BitVec.toNat_inj, cdField, csField, tagBitsField, BitVec.extractLsb'_toNat,
    Nat.shiftRight_eq_div_pow, BitVec.ofNat_eq_ofNat, BitVec.toNat_ofNat, Nat.zero_mod]
  omega

/-! ### The rows of the opcode map -/

/-- The fields the command of an opcode does not use are zero (rule R46's table). -/
def Op.UnusedZero : Op → Word48 → Prop
  | .pack, w => csField w = 0
  | .tobytes, w | .tobyte, w | .tou32, w | .rdgrp, w => cdField w = 0 ∧ tagBitsField w = 0 ∧ immField w = 0
  | .clone, w => tagBitsField w = 0 ∧ immField w = 0
  | .wbits, w | .dync, w => cdField w = 0 ∧ csField w = 0 ∧ immField w = 0
  | .dynq, w => cdField w = 0 ∧ csField w = 0 ∧ tagBitsField w = 0

theorem Op.ofCode_code (o : Op) : Op.ofCode o.code = some o := by cases o <;> rfl

theorem Op.code_injective {o o' : Op} (h : o.code = o'.code) : o = o' := by
  cases o <;> cases o' <;> first | rfl | exact absurd h (by decide)

/-- The opcodes of rule R47 that are reserved. -/
theorem Op.ofCode_eq_none_iff (b : BitVec 4) :
    Op.ofCode b = none ↔ b.toNat ∈ [0x0, 0x7, 0xB, 0xC, 0xD, 0xE, 0xF] := by revert b; decide

theorem Op.code_of_ofCode {b : BitVec 4} {o : Op} (h : Op.ofCode b = some o) : b = o.code := by
  revert h
  revert b
  cases o <;> decide

/-- "`w AND mask = match`" of a row says: its opcode, and zero in the fields its command does not use. -/
theorem Op.matches_iff (o : Op) (w : Word48) : w &&& o.mask = o.pattern ↔ opField w = o.code ∧ o.UnusedZero w := by
  have key (m0 p0 : BitVec 4) (m1 p1 m2 p2 : BitVec 2) (m3 p3 : Byte) (m4 p4 : Word)
      (hm : o.mask = commandWord m0 m1 m2 m3 m4) (hp : o.pattern = commandWord p0 p1 p2 p3 p4) :
      w &&& o.mask = o.pattern ↔ opField w &&& m0 = p0 ∧ cdField w &&& m1 = p1 ∧ csField w &&& m2 = p2 ∧
        tagBitsField w &&& m3 = p3 ∧ immField w &&& m4 = p4 := by
    conv_lhs => rw [hm, hp, ← commandWord_fields w, commandWord_and, commandWord_inj]
  have h0 (x : BitVec 4) : x &&& 0xF = x := by revert x; decide
  have h1 (x : BitVec 2) : x &&& 3 = x := by revert x; decide
  have h3 (x : Byte) : x &&& 0xFF = x := by revert x; decide
  have h4 (x : Word) : x &&& 0xFFFFFFFF = x := BitVec.and_allOnes
  have hz (n : Nat) (x : BitVec n) : x &&& 0 = 0 := BitVec.and_zero
  cases o
  case pack =>
    rw [key 0xF 1 0 0 3 0 0 0 0 0 rfl rfl, h0, h1]
    simp only [hz, Op.code, Op.UnusedZero, true_and, and_true]
  case clone =>
    rw [key 0xF 6 0 0 0 0 0xFF 0 0xFFFFFFFF 0 rfl rfl, h0, h3, h4]
    simp only [hz, Op.code, Op.UnusedZero, true_and]
  case wbits =>
    rw [key 0xF 8 3 0 3 0 0 0 0xFFFFFFFF 0 rfl rfl, h0, h1, h1, h4]
    simp only [hz, Op.code, Op.UnusedZero, true_and]
  case dync =>
    rw [key 0xF 0xA 3 0 3 0 0 0 0xFFFFFFFF 0 rfl rfl, h0, h1, h1, h4]
    simp only [hz, Op.code, Op.UnusedZero, true_and]
  case dynq =>
    rw [key 0xF 9 3 0 3 0 0xFF 0 0 0 rfl rfl, h0, h1, h1, h3]
    simp only [hz, Op.code, Op.UnusedZero, and_true]
  case tobytes =>
    rw [key 0xF 2 3 0 0 0 0xFF 0 0xFFFFFFFF 0 rfl rfl, h0, h1, h3, h4]
    simp only [hz, Op.code, Op.UnusedZero, true_and]
  case tobyte =>
    rw [key 0xF 3 3 0 0 0 0xFF 0 0xFFFFFFFF 0 rfl rfl, h0, h1, h3, h4]
    simp only [hz, Op.code, Op.UnusedZero, true_and]
  case tou32 =>
    rw [key 0xF 4 3 0 0 0 0xFF 0 0xFFFFFFFF 0 rfl rfl, h0, h1, h3, h4]
    simp only [hz, Op.code, Op.UnusedZero, true_and]
  case rdgrp =>
    rw [key 0xF 5 3 0 0 0 0xFF 0 0xFFFFFFFF 0 rfl rfl, h0, h1, h3, h4]
    simp only [hz, Op.code, Op.UnusedZero, true_and]

/-- Decoding says once what it can do: a command of the opcode's row whose unused fields are zero, or one of two refusals. -/
theorem decode_cases (w : Word48) :
    (Op.ofCode (opField w) = none ∧ decode w = .illegal (.reservedOpcode (opField w))) ∨
    (∃ o, opField w = o.code ∧ o.UnusedZero w ∧ decode w = .command (readOperands o w)) ∨
    (∃ o, opField w = o.code ∧ ¬o.UnusedZero w ∧ decode w = .illegal (.unusedFieldSet o)) := by
  unfold decode
  cases ho : Op.ofCode (opField w) with
  | none => exact .inl ⟨rfl, rfl⟩
  | some o =>
    have hc := Op.code_of_ofCode ho
    by_cases hm : w &&& o.mask = o.pattern
    · exact .inr (.inl ⟨o, hc, ((o.matches_iff w).1 hm).2, by simp [hm]⟩)
    · exact .inr (.inr ⟨o, hc, fun hu => hm ((o.matches_iff w).2 ⟨hc, hu⟩), by simp [hm]⟩)

/-- A word with a defined opcode and zero in its unused fields decodes to that opcode's command. -/
theorem decode_of_unusedZero {w : Word48} {o : Op} (hc : opField w = o.code) (hu : o.UnusedZero w) :
    decode w = .command (readOperands o w) := by
  simp [decode, hc, Op.ofCode_code, (o.matches_iff w).2 ⟨hc, hu⟩]

/-- A word with a defined opcode and a bit set in an unused field is refused. -/
theorem decode_of_unused_set {w : Word48} {o : Op} (hc : opField w = o.code) (hu : ¬o.UnusedZero w) :
    decode w = .illegal (.unusedFieldSet o) := by
  have : ¬(w &&& o.mask = o.pattern) := fun h => hu ((o.matches_iff w).1 h).2
  simp [decode, hc, Op.ofCode_code, this]

/-- A word decodes to a command exactly when it has its opcode and zero in its unused fields, and the command is the one read
from the operand fields. -/
theorem decode_eq_command_iff {w : Word48} {i : Instr} :
    decode w = .command i ↔ ∃ o, opField w = o.code ∧ o.UnusedZero w ∧ i = readOperands o w := by
  constructor
  · intro h
    obtain ⟨-, hd⟩ | ⟨o, ho, hu, hd⟩ | ⟨o, -, -, hd⟩ := decode_cases w
    · rw [hd] at h
      cases h
    · rw [hd] at h
      cases h
      exact ⟨o, ho, hu, rfl⟩
    · rw [hd] at h
      cases h
  · rintro ⟨o, ho, hu, rfl⟩
    exact decode_of_unusedZero ho hu

end Sys2Proof
end

