-- ==== Sys2Proof/Laws/State.lean ====
section
/-! SUPPORT. What each update of State does to each thing that is read from it, one lemma each, so that no proof unfolds a
record update; and what a raised fault is. -/

namespace Sys2Proof.Machine

/-! ### setSlot -/

@[simp] theorem State.slot_setSlot_self (s : State) (i : SlotId) (c : Container) : (s.setSlot i c).slot i = some c := by
  cases i <;> rfl

theorem State.slot_setSlot_ne (s : State) {i j : SlotId} (c : Container) (h : j ≠ i) :
    (s.setSlot i c).slot j = s.slot j := by
  cases i <;> cases j <;> first | rfl | exact absurd rfl h

theorem State.slot_setSlot (s : State) (i j : SlotId) (c : Container) :
    (s.setSlot i c).slot j = if j = i then some c else s.slot j := by
  split
  · subst j
    exact s.slot_setSlot_self i c
  · exact s.slot_setSlot_ne c ‹_›

@[simp] theorem State.fseen_setSlot (s : State) (i : SlotId) (c : Container) : (s.setSlot i c).fseen = s.fseen := by
  cases i <;> rfl
@[simp] theorem State.commands_setSlot (s : State) (i : SlotId) (c : Container) :
    (s.setSlot i c).commands = s.commands := by cases i <;> rfl
@[simp] theorem State.responses_setSlot (s : State) (i : SlotId) (c : Container) :
    (s.setSlot i c).responses = s.responses := by cases i <;> rfl

/-- Writing a slot with what it holds changes nothing. -/
theorem State.setSlot_eq_self (s : State) {i : SlotId} {c : Container} (h : s.slot i = some c) : s.setSlot i c = s := by
  cases s
  cases i <;> simp_all [State.slot, State.setSlot]

/-- Two states are equal when their four slots, their flag and the host's two lists are. -/
theorem State.ext_slots {s t : State} (slots : ∀ j, s.slot j = t.slot j) (flag : s.fseen = t.fseen)
    (commands : s.commands = t.commands) (responses : s.responses = t.responses) : s = t := by
  have h0 := slots .c0
  have h1 := slots .c1
  have h2 := slots .c2
  have h3 := slots .c3
  cases s
  cases t
  simp_all [State.slot]

/-! ### answer -/

@[simp] theorem State.slot_answer (s : State) (r : Word48) (j : SlotId) : (s.answer r).slot j = s.slot j := by
  cases j <;> rfl
@[simp] theorem State.fseen_answer (s : State) (r : Word48) : (s.answer r).fseen = s.fseen := rfl
@[simp] theorem State.commands_answer (s : State) (r : Word48) : (s.answer r).commands = s.commands := rfl
@[simp] theorem State.responses_answer (s : State) (r : Word48) : (s.answer r).responses = s.responses ++ [r] := rfl

/-! ### setFseen and raise -/

@[simp] theorem State.slot_setFseen (s : State) (j : SlotId) : s.setFseen.slot j = s.slot j := by cases j <;> rfl
@[simp] theorem State.fseen_setFseen (s : State) : s.setFseen.fseen = true := rfl
@[simp] theorem State.commands_setFseen (s : State) : s.setFseen.commands = s.commands := rfl
@[simp] theorem State.responses_setFseen (s : State) : s.setFseen.responses = s.responses := rfl

@[simp] theorem State.slot_raise (s : State) (c : Cause) (j : SlotId) : (s.raise c).slot j = s.slot j := by cases j <;> rfl
@[simp] theorem State.fseen_raise (s : State) (c : Cause) : (s.raise c).fseen = true := rfl
@[simp] theorem State.commands_raise (s : State) (c : Cause) : (s.raise c).commands = s.commands := rfl
@[simp] theorem State.responses_raise (s : State) (c : Cause) :
    (s.raise c).responses = s.responses ++ [respond c.code false 0 0 0] := rfl

/-! ### Direct record updates of the fields outside the slots -/

@[simp] theorem State.slot_with_commands (s : State) (ws : List Word48) (j : SlotId) :
    ({ s with commands := ws } : State).slot j = s.slot j := by cases j <;> rfl
@[simp] theorem State.slot_with_responses (s : State) (rs : List Word48) (j : SlotId) :
    ({ s with responses := rs } : State).slot j = s.slot j := by cases j <;> rfl
@[simp] theorem State.slot_with_fseen (s : State) (f : Bool) (j : SlotId) :
    ({ s with fseen := f } : State).slot j = s.slot j := by cases j <;> rfl

/-! ### reset and the host -/

@[simp] theorem State.slot_reset (j : SlotId) : State.reset.slot j = none := by cases j <;> rfl
@[simp] theorem State.slot_hostReset (s : State) (j : SlotId) : s.hostReset.slot j = none := by cases j <;> rfl
@[simp] theorem State.fseen_hostReset (s : State) : s.hostReset.fseen = false := rfl
@[simp] theorem State.slot_hostPresent (s : State) (w : Word48) (j : SlotId) : (s.hostPresent w).slot j = s.slot j := by
  cases j <;> rfl
@[simp] theorem State.slot_placeCommand (s : State) (w : Word48) (j : SlotId) :
    (s.placeCommand w).slot j = s.slot j := by cases j <;> rfl

theorem State.takeCommand_nil {s : State} (h : s.commands = []) : s.takeCommand = none := by simp [State.takeCommand, h]
theorem State.takeCommand_cons {s : State} {w : Word48} {rest : List Word48} (h : s.commands = w :: rest) :
    s.takeCommand = some (w, { s with commands := rest }) := by simp [State.takeCommand, h]
@[simp] theorem State.takeCommand_placeCommand (s : State) (w : Word48) : (s.placeCommand w).takeCommand = some (w, s) := rfl

end Sys2Proof.Machine
end

