-- ==== Sys2Proof/Laws/Exec.lean ====
section
/-! SUPPORT. What a command can do, said once: the response word's fields, the shared extraction, each meaning, and one
inversion lemma for `exec` and one for `step`, which proofs cite instead of unfolding the machine. -/

namespace Sys2Proof.Machine

/-! ### The response word -/

section
variable (status : BitVec 3) (present : Bool) (len : BitVec 3) (wtag : Byte) (data : Word)

/-- A field of a response that lies above `data` is a field of the rest. -/
theorem extract_respond_of_le {start n : Nat} (h : 32 ≤ start) :
    (respond status present len wtag data).extractLsb' start n =
      (status ++ BitVec.ofBool present ++ (0 : BitVec 1) ++ len ++ wtag).extractLsb' (start - 32) n :=
  BitVec.extractLsb'_append_eq_of_le (xhi := status ++ BitVec.ofBool present ++ (0 : BitVec 1) ++ len ++ wtag) (xlo := data) h

/-- The status of an assembled response; the other fields are read the same way. -/
@[simp] theorem respStatus_respond : respStatus (respond status present len wtag data) = status := by
  rw [respStatus, extract_respond_of_le _ _ _ _ _ (by decide), BitVec.extractLsb'_append_eq_of_le (by decide),
    BitVec.extractLsb'_append_eq_of_le (by decide), BitVec.extractLsb'_append_eq_of_le (by decide),
    BitVec.extractLsb'_append_eq_of_le (by decide)]
  simp

end

/-- The status of a fault's response is its code, which is not 0 (rule R115). -/
@[simp] theorem Cause.code_ne_zero (c : Cause) : c.code ≠ 0#3 := by cases c <;> decide

/-! ### Extraction -/

/-- Everything the shared extraction can answer. -/
theorem extract_cases {s : State} {cs : SlotId} {f : Container → Option Word48} {t : State}
    (h : extract s cs f = .next t) :
    (s.slot cs = none ∧ t = s.raise .emptySlot) ∨ ∃ c r, s.slot cs = some c ∧ f c = some r ∧ t = s.answer r := by
  unfold extract at h
  split at h
  · cases h
    exact .inl ⟨‹_›, rfl⟩
  · rename_i c hc
    split at h
    · cases h
    · rename_i r hr
      cases h
      exact .inr ⟨c, r, hc, hr, rfl⟩

theorem extract_empty {s : State} {cs : SlotId} {f : Container → Option Word48} (h : s.slot cs = none) :
    extract s cs f = .next (s.raise .emptySlot) := by simp [extract, h]

theorem extract_some {s : State} {cs : SlotId} {f : Container → Option Word48} {c : Container} {r : Word48}
    (hc : s.slot cs = some c) (hr : f c = some r) : extract s cs f = .next (s.answer r) := by simp [extract, hc, hr]

/-- The answer of TOBYTES from the byte view. -/
theorem tobytesResponse_eq {c : Container} {bytes : List Byte} (h : unpackBytes c.g (bits c.wt) = some bytes) :
    tobytesResponse c =
      some (respond 0 false (BitVec.ofNat 3 bytes.length) 0 (BitVec.ofNat 32 (leNat bytes))) := by
  obtain ⟨hb, -, hl, -⟩ := unpackBytes_spec h
  simp [tobytesResponse, h, pad4_eq (hl ▸ ngroups_le_four hb)]

/-- The answer of TOBYTE from the byte view. -/
theorem tobyteResponse_eq {c : Container} {bytes : List Byte} (h : unpackBytes c.g (bits c.wt) = some bytes) :
    tobyteResponse c = some (respond 0 false 0 0 ((bytes.headD 0).setWidth 32)) := by
  simp [tobyteResponse, firstByte, h]

/-- The answer of TOU32 from the byte view. -/
theorem tou32Response_eq {c : Container} {bytes : List Byte} (h : unpackBytes c.g (bits c.wt) = some bytes) :
    tou32Response c = some (respond 0 false 0 0 (BitVec.ofNat 32 (leNat bytes))) := by
  obtain ⟨hb, -, hl, -⟩ := unpackBytes_spec h
  simp [tou32Response, h, pad4_eq (hl ▸ ngroups_le_four hb)]

/-- The answer of RDGRP. -/
theorem rdgrpResponse_eq {c : Container} (h : c.g.length ≤ 4) :
    rdgrpResponse c =
      some (respond 0 false (BitVec.ofNat 3 c.g.length) c.wt.toBits (BitVec.ofNat 32 (leNat c.g))) := by
  simp [rdgrpResponse, pad4_eq h]

/-- Every answer of an extraction command is a response with status 0, absent, and its shape. -/
theorem tobytesResponse_cases {c : Container} {r : Word48} (h : tobytesResponse c = some r) :
    ∃ bytes, unpackBytes c.g (bits c.wt) = some bytes ∧
      r = respond 0 false (BitVec.ofNat 3 bytes.length) 0 (BitVec.ofNat 32 (leNat bytes)) := by
  cases hu : unpackBytes c.g (bits c.wt) with
  | none => simp [tobytesResponse, hu] at h
  | some bytes => exact ⟨bytes, rfl, by simpa [tobytesResponse_eq hu] using h.symm⟩

theorem tobyteResponse_cases {c : Container} {r : Word48} (h : tobyteResponse c = some r) :
    ∃ bytes, unpackBytes c.g (bits c.wt) = some bytes ∧ r = respond 0 false 0 0 ((bytes.headD 0).setWidth 32) := by
  cases hu : unpackBytes c.g (bits c.wt) with
  | none => simp [tobyteResponse, firstByte, hu] at h
  | some bytes => exact ⟨bytes, rfl, by simpa [tobyteResponse_eq hu] using h.symm⟩

theorem tou32Response_cases {c : Container} {r : Word48} (h : tou32Response c = some r) :
    ∃ bytes, unpackBytes c.g (bits c.wt) = some bytes ∧ r = respond 0 false 0 0 (BitVec.ofNat 32 (leNat bytes)) := by
  cases hu : unpackBytes c.g (bits c.wt) with
  | none => simp [tou32Response, hu] at h
  | some bytes => exact ⟨bytes, rfl, by simpa [tou32Response_eq hu] using h.symm⟩

theorem rdgrpResponse_cases {c : Container} {r : Word48} (h : rdgrpResponse c = some r) :
    c.g.length ≤ 4 ∧
      r = respond 0 false (BitVec.ofNat 3 c.g.length) c.wt.toBits (BitVec.ofNat 32 (leNat c.g)) := by
  by_cases hl : c.g.length ≤ 4
  · exact ⟨hl, by simpa [rdgrpResponse_eq hl] using h.symm⟩
  · simp [rdgrpResponse, pad4, Config.maxGroups, hl] at h

/-! ### The width and construction commands -/

theorem execWbits_ok {t : Tag} {s : State} (h : tagOk t = true) :
    execWbits t s = .next (s.answer (respond 0 false 0 0 (BitVec.ofNat 32 (bits t)))) := by simp [execWbits, h]
theorem execWbits_bad {t : Tag} {s : State} (h : tagOk t = false) : execWbits t s = .next (s.raise .badTag) := by
  simp [execWbits, h]
theorem execDync_ok {t : Tag} {s : State} (h : tagOk t = true) :
    execDync t s = .next (s.answer (dynamicResponse (fromCapability t))) := by simp [execDync, h]
theorem execDync_bad {t : Tag} {s : State} (h : tagOk t = false) : execDync t s = .next (s.raise .badTag) := by
  simp [execDync, h]
theorem execPack_bad {cd : SlotId} {t : Tag} {v : Word} {s : State} (h : tagOk t = false) :
    execPack cd t v s = .next (s.raise .badTag) := by simp [execPack, h]
theorem execPack_overflow {cd : SlotId} {t : Tag} {v : Word} {s : State} (h : tagOk t = true) (hb : 32 < bits t) :
    execPack cd t v s = .next (s.raise .widthOverflow) := by simp [execPack, h, pack_of_lt hb]
theorem execPack_ok {cd : SlotId} {t : Tag} {v : Word} {s : State} {g : List Byte} (h : tagOk t = true)
    (hg : pack v (bits t) = some g) : execPack cd t v s = .next ((s.setSlot cd ⟨t, g⟩).answer respondOk) := by
  simp [execPack, h, hg]
theorem execClone_empty {cd cs : SlotId} {s : State} (h : s.slot cs = none) :
    execClone cd cs s = .next (s.raise .emptySlot) := by simp [execClone, h]
theorem execClone_some {cd cs : SlotId} {s : State} {c : Container} (h : s.slot cs = some c) :
    execClone cd cs s = .next ((s.setSlot cd c).answer respondOk) := by simp [execClone, h]

/-- The answer of DYNQ and DYNC has status 0 (rule R121 (a)). -/
@[simp] theorem respStatus_dynamicResponse (t : Option Tag) : respStatus (dynamicResponse t) = 0 := by
  cases t <;> simp [dynamicResponse]

/-! ### exec and step -/

/-- Everything a command can do when it does not stop: raise one of the four faults; answer with status 0 and write nothing;
or, for PACK and CLONE, write the destination slot and answer zero. -/
theorem exec_cases {i : Instr} {s t : State} (h : exec i s = .next t) :
    (∃ c, t = s.raise c) ∨ (i.dest = none ∧ ∃ r, respStatus r = 0 ∧ t = s.answer r) ∨
    (∃ cd tag v g, i = .pack cd tag v ∧ tagOk tag = true ∧ pack v (bits tag) = some g ∧
      t = (s.setSlot cd ⟨tag, g⟩).answer respondOk) ∨
    (∃ cd cs c, i = .clone cd cs ∧ s.slot cs = some c ∧ t = (s.setSlot cd c).answer respondOk) := by
  cases i with
  | pack cd tag v =>
    simp only [exec, execPack] at h
    split at h
    · split at h
      · cases h
        exact .inl ⟨_, rfl⟩
      · cases h
        exact .inr (.inr (.inl ⟨cd, tag, v, _, rfl, ‹_›, ‹_›, rfl⟩))
    · cases h
      exact .inl ⟨_, rfl⟩
  | clone cd cs =>
    simp only [exec, execClone] at h
    split at h
    · cases h
      exact .inl ⟨_, rfl⟩
    · cases h
      exact .inr (.inr (.inr ⟨cd, cs, _, rfl, ‹_›, rfl⟩))
  | tobytes cs =>
    obtain ⟨-, rfl⟩ | ⟨c, r, -, hr, rfl⟩ := extract_cases (f := tobytesResponse) h
    · exact .inl ⟨_, rfl⟩
    · obtain ⟨_, -, rfl⟩ := tobytesResponse_cases hr
      exact .inr (.inl ⟨rfl, _, by simp, rfl⟩)
  | tobyte cs =>
    obtain ⟨-, rfl⟩ | ⟨c, r, -, hr, rfl⟩ := extract_cases (f := tobyteResponse) h
    · exact .inl ⟨_, rfl⟩
    · obtain ⟨_, -, rfl⟩ := tobyteResponse_cases hr
      exact .inr (.inl ⟨rfl, _, by simp, rfl⟩)
  | tou32 cs =>
    obtain ⟨-, rfl⟩ | ⟨c, r, -, hr, rfl⟩ := extract_cases (f := tou32Response) h
    · exact .inl ⟨_, rfl⟩
    · obtain ⟨_, -, rfl⟩ := tou32Response_cases hr
      exact .inr (.inl ⟨rfl, _, by simp, rfl⟩)
  | rdgrp cs =>
    obtain ⟨-, rfl⟩ | ⟨c, r, -, hr, rfl⟩ := extract_cases (f := rdgrpResponse) h
    · exact .inl ⟨_, rfl⟩
    · obtain ⟨-, rfl⟩ := rdgrpResponse_cases hr
      exact .inr (.inl ⟨rfl, _, by simp, rfl⟩)
  | wbits tag =>
    simp only [exec, execWbits] at h
    split at h
    · cases h
      exact .inr (.inl ⟨rfl, _, by simp, rfl⟩)
    · cases h
      exact .inl ⟨_, rfl⟩
  | dynq n =>
    cases h
    exact .inr (.inl ⟨rfl, _, by simp, rfl⟩)
  | dync tag =>
    simp only [exec, execDync] at h
    split at h
    · cases h
      exact .inr (.inl ⟨rfl, _, by simp, rfl⟩)
    · cases h
      exact .inl ⟨_, rfl⟩

/-- Everything a step can do when it does not stop: nothing, when no command is presented; raise ILLEGAL_CMD; or execute the
decoded command. -/
theorem step_cases {s t : State} (h : step s = .next t) :
    (s.commands = [] ∧ t = s) ∨
    (∃ w rest why, s.commands = w :: rest ∧ decode w = .illegal why ∧
      t = ({ s with commands := rest } : State).raise .illegalCmd) ∨
    (∃ w rest i, s.commands = w :: rest ∧ decode w = .command i ∧
      exec i { s with commands := rest } = .next t) := by
  unfold step at h
  cases hc : s.commands with
  | nil =>
    rw [State.takeCommand_nil hc] at h
    cases h
    exact .inl ⟨rfl, rfl⟩
  | cons w rest =>
    rw [State.takeCommand_cons hc] at h
    simp only at h
    split at h
    · exact .inr (.inr ⟨w, rest, _, rfl, ‹_›, h⟩)
    · cases h
      exact .inr (.inl ⟨w, rest, _, rfl, ‹_›, rfl⟩)

end Sys2Proof.Machine
end

