-- ==== Sys2Proof/Laws/PerInstr.lean ====
section
/-! SUPPORT. Facts about the encoding of every command, one lemma for each constructor of Instr: the encoded word has the opcode
of its row and zero in the fields the command does not use (rules R46, R47). -/

namespace Sys2Proof

/-- The row of the opcode map a command belongs to. -/
def Instr.op : Instr → Op
  | .pack _ _ _ => .pack
  | .tobytes _ => .tobytes
  | .tobyte _ => .tobyte
  | .tou32 _ => .tou32
  | .rdgrp _ => .rdgrp
  | .clone _ _ => .clone
  | .wbits _ => .wbits
  | .dynq _ => .dynq
  | .dync _ => .dync

end Sys2Proof

namespace Sys2Proof.Laws.EncodedRow

/-- The encoded word has its row's opcode and zero in every unused field. -/
def Statement (i : Instr) : Prop := opField (encode i) = i.op.code ∧ i.op.UnusedZero (encode i)

theorem pack (cd : SlotId) (t : Tag) (value : Word) : Statement (.pack cd t value) := by
  simp [Statement, encode, Instr.op, Op.code, Op.UnusedZero]
theorem tobytes (cs : SlotId) : Statement (.tobytes cs) := by
  simp [Statement, encode, Instr.op, Op.code, Op.UnusedZero]
theorem tobyte (cs : SlotId) : Statement (.tobyte cs) := by
  simp [Statement, encode, Instr.op, Op.code, Op.UnusedZero]
theorem tou32 (cs : SlotId) : Statement (.tou32 cs) := by
  simp [Statement, encode, Instr.op, Op.code, Op.UnusedZero]
theorem rdgrp (cs : SlotId) : Statement (.rdgrp cs) := by
  simp [Statement, encode, Instr.op, Op.code, Op.UnusedZero]
theorem clone (cd cs : SlotId) : Statement (.clone cd cs) := by
  simp [Statement, encode, Instr.op, Op.code, Op.UnusedZero]
theorem wbits (t : Tag) : Statement (.wbits t) := by
  simp [Statement, encode, Instr.op, Op.code, Op.UnusedZero]
theorem dynq (n : Word) : Statement (.dynq n) := by
  simp [Statement, encode, Instr.op, Op.code, Op.UnusedZero]
theorem dync (t : Tag) : Statement (.dync t) := by
  simp [Statement, encode, Instr.op, Op.code, Op.UnusedZero]

end Sys2Proof.Laws.EncodedRow
end

