-- ==== Sys2Proof/Laws/Run.lean ====
section
/-! SUPPORT. Running the machine one step more: the two lemmas by which a proof goes by induction over a run (rule R140). -/

namespace Sys2Proof.Machine

/-- One step and then the rest, for any machine. -/
theorem run_succ (M : Host.Core) (n : Nat) (s : M.State) :
    M.run (n + 1) s =
      match M.step s with
      | .next u => M.run n u
      | .fault r => .fault r
      | .refused r => .refused r := by
  cases h : M.step s <;> simp only [Host.Core.run, h]

/-- A step that answers a next state, and then the run from there. -/
theorem run_succ_of_next {n : Nat} {s u : State} (h : step s = .next u) :
    Host.Core.run Sys2Proof.core (n + 1) s = Host.Core.run Sys2Proof.core n u := by
  have h' : Host.Core.step Sys2Proof.core s = .next u := h
  rw [run_succ Sys2Proof.core n s, h']

/-- A run that ends in a next state began with a step that answers one. -/
theorem run_succ_cases {n : Nat} {s t : State} (h : Host.Core.run Sys2Proof.core (n + 1) s = .next t) :
    ∃ u, step s = .next u ∧ Host.Core.run Sys2Proof.core n u = .next t := by
  rw [run_succ Sys2Proof.core n s] at h
  cases hs : Host.Core.step Sys2Proof.core s <;> rw [hs] at h
  · exact ⟨_, hs, h⟩
  · cases h
  · cases h

end Sys2Proof.Machine
end

