-- ==== Sys2Proof/Tests/Slice0.lean ====
section
/-! SUPPORT. Tests of single steps against the spec's own numbers (30_encoding.md section 9, 95_test_vectors.md), the smoke test
of well-formedness, and, for every statement with hypotheses, a state and operands that meet them. -/

namespace Sys2Proof.Tests

open Sys2Proof.Machine

/-! ### Helpers -/

/-- The next state of an outcome, none where the machine stops. -/
def nextOf (o : Host.Outcome State Fault Refusal) : Option State :=
  match o with
  | .next t => some t
  | .fault _ | .refused _ => none

/-- One step from `s` with the word `w` presented: the responses and FSEEN after it. -/
def respond1 (s : State) (w : Word48) : Option (List Word48 × Bool) :=
  (nextOf (step (s.placeCommand w))).map fun t => (t.responses, t.fseen)

/-- Slot c0 holds `PACK s3, 5`, slot c1 `PACK s13, 0x1ABC`, slot c3 `PACK r0`, slot c2 is empty (95_test_vectors.md SRC1,
SRC3). -/
def demo : State :=
  { State.reset with
    c0 := some ⟨⟨.marker, 3⟩, [0xA0]⟩
    c1 := some ⟨⟨.marker, 13⟩, [0xBC, 0xD0]⟩
    c3 := some ⟨⟨.raw, 0⟩, []⟩ }

/-- Slot c0 holds what no PACK builds: a 3-bit tag and five groups. -/
def broken : State := { State.reset with c0 := some ⟨⟨.marker, 3⟩, [0, 0, 0, 0, 0]⟩ }

/-! ### Well-formedness: an ill-formed command for each check, refused (95_test_vectors.md V-W) -/

theorem test_wellFormed_marker_0 : (Instr.wbits ⟨.marker, 0⟩).wellFormed = false := by decide
theorem test_wellFormed_marker_25 : (Instr.pack .c0 ⟨.marker, 25⟩ 1).wellFormed = false := by decide
theorem test_wellFormed_dynamic_0 : (Instr.dync ⟨.dynamic, 0⟩).wellFormed = false := by decide
theorem test_wellFormed_dynamic_25 : (Instr.wbits ⟨.dynamic, 25⟩).wellFormed = false := by decide
theorem test_wellFormed_native_12 : (Instr.wbits ⟨.native, 12⟩).wellFormed = false := by decide
theorem test_wellFormed_native_33 : (Instr.pack .c0 ⟨.native, 33⟩ 1).wellFormed = false := by decide
theorem test_wellFormed_good : (Instr.pack .c0 ⟨.marker, 24⟩ 1).wellFormed = true ∧
    (Instr.wbits ⟨.raw, 63⟩).wellFormed = true ∧ (Instr.dynq 25).wellFormed = true := by decide

/-! ### Decoding: words written out bit by bit (rule R45; 30_encoding.md section 9) -/

theorem test_decode_pack : decode 0b0001_01_00_00_001101_00000000000000000001101010111100 =
    .command (.pack .c1 ⟨.marker, 13⟩ 0x1ABC) := by decide
theorem test_decode_tobytes : decode 0b0010_00_11_00_000000_00000000000000000000000000000000 = .command (.tobytes .c3) := by
  decide
theorem test_decode_tobyte : decode 0b0011_00_01_00_000000_00000000000000000000000000000000 = .command (.tobyte .c1) := by
  decide
theorem test_decode_tou32 : decode 0b0100_00_10_00_000000_00000000000000000000000000000000 = .command (.tou32 .c2) := by
  decide
theorem test_decode_rdgrp : decode 0b0101_00_01_00_000000_00000000000000000000000000000000 = .command (.rdgrp .c1) := by
  decide
theorem test_decode_clone : decode 0b0110_10_01_00_000000_00000000000000000000000000000000 = .command (.clone .c2 .c1) := by
  decide
theorem test_decode_wbits : decode 0b1000_00_00_01_001101_00000000000000000000000000000000 =
    .command (.wbits ⟨.dynamic, 13⟩) := by decide
theorem test_decode_dynq : decode 0b1001_00_00_00_000000_11111111111111111111111111111111 =
    .command (.dynq 0xFFFFFFFF) := by decide
theorem test_decode_dync : decode 0b1010_00_00_10_100000_00000000000000000000000000000000 =
    .command (.dync ⟨.native, 32⟩) := by decide
theorem test_decode_illegal : decode 0 = .illegal (.reservedOpcode 0) ∧
    decode 0x700000000000 = .illegal (.reservedOpcode 7) ∧ decode 0x240000000000 = .illegal (.unusedFieldSet .tobytes) ∧
    decode 0x810D00000000 = .illegal (.unusedFieldSet .wbits) ∧
    decode 0x90010000000D = .illegal (.unusedFieldSet .dynq) := by decide
theorem test_encode : encode (.pack .c0 ⟨.marker, 3⟩ 5) = 0x100300000005 ∧ encode (.clone .c2 .c1) = 0x690000000000 ∧
    encode (.dync ⟨.native, 8⟩) = 0xA08800000000 := by decide
theorem test_decodeTableWord : decodeTableWord 48 0x690000000000 = some (.clone .c2 .c1) ∧
    decodeTableWord 48 0x600000000001 = none := by decide
theorem test_withFetchWord :
    (nextOf (step (State.reset.withFetchWord 48 0x900000000018))).map (·.responses) = some [0x105800000000] := by decide

/-- Lines of 30_encoding.md section 9 and of rule R54, by their characters. -/
theorem test_readLine :
    readLine ['P', 'A', 'C', 'K', ' ', 'c', '1', ',', ' ', 's', '1', '3', ',', ' ', '0', 'x', '1', 'A', 'B', 'C'] =
      .command (.pack .c1 ⟨.marker, 13⟩ 0x1ABC) ∧
    readLine ['C', 'L', 'O', 'N', 'E', ' ', 'c', '2', ',', ' ', 'c', '1', ' ', ';', ' ', 'x'] = .command (.clone .c2 .c1) ∧
    readLine ['D', 'Y', 'N', 'Q', ' ', '0', 'b', '1', '1', '0', '1'] = .command (.dynq 13) ∧
    readLine ['W', 'B', 'I', 'T', 'S', ' ', 'u', '1', '2'] = .command (.wbits ⟨.native, 12⟩) := by decide
/-- No slot c4, no quantity 64, no number above 4294967295, no missing operand. -/
theorem test_readLine_refused :
    readLine ['T', 'O', 'U', '3', '2', ' ', 'c', '4'] = .notACommand ∧
    readLine ['W', 'B', 'I', 'T', 'S', ' ', 's', '6', '4'] = .notACommand ∧
    readLine ['D', 'Y', 'N', 'Q', ' ', '4', '2', '9', '4', '9', '6', '7', '2', '9', '6'] = .notACommand ∧
    readLine ['D', 'Y', 'N', 'C'] = .notACommand := by decide

/-! ### The commands (95_test_vectors.md) -/

/-- SRC1 line 1, V-N15. -/
theorem test_pack_groups : (nextOf (step (State.reset.placeCommand 0x100300000005))).map (·.c0) =
      some (some ⟨⟨.marker, 3⟩, [0xA0]⟩) ∧
    (nextOf (step (State.reset.placeCommand 0x10DFDEADBEEF))).map (·.c0) =
      some (some ⟨⟨.raw, 31⟩, [0xEF, 0xBE, 0xAD, 0xBC]⟩) := by decide
/-- V-F1, V-F6. -/
theorem test_pack_faults : respond1 State.reset 0x101900000001 = some ([0x400000000000], true) ∧
    respond1 State.reset 0x10E100000001 = some ([0x800000000000], true) := by decide
/-- V-N20, V-F14. -/
theorem test_clone : (nextOf (step (demo.placeCommand 0x690000000000))).map (·.c2) =
      some (some ⟨⟨.marker, 13⟩, [0xBC, 0xD0]⟩) ∧
    respond1 State.reset 0x610000000000 = some ([0x600000000000], true) := by decide
/-- SRC1 line 3, P1 line 6. -/
theorem test_tobytes : respond1 demo 0x200000000000 = some ([0x010000000005], false) ∧
    respond1 demo 0x210000000000 = some ([0x020000001ABC], false) := by decide
/-- SRC1 line 4 (the byte view, not the group 0xA0), SRC3 line 2 (width 0). -/
theorem test_tobyte : respond1 demo 0x300000000000 = some ([0x000000000005], false) ∧
    respond1 demo 0x330000000000 = some ([0x000000000000], false) := by decide
/-- P1 line 9, V-F10. -/
theorem test_tou32 : respond1 demo 0x410000000000 = some ([0x000000001ABC], false) ∧
    respond1 demo 0x420000000000 = some ([0x600000000000], true) := by decide
/-- P1 line 4, V-N16. -/
theorem test_rdgrp : respond1 demo 0x510000000000 = some ([0x020D0000D0BC], false) ∧
    respond1 demo 0x530000000000 = some ([0x00C000000000], false) := by decide
/-- V-W, V-F8. -/
theorem test_wbits : respond1 State.reset 0x80FF00000000 = some ([0x00000000003F], false) ∧
    respond1 State.reset 0x801900000000 = some ([0x400000000000], true) := by decide
/-- The table of DYNQ: 24 is present, 25 and 269 (low six bits 13) are absent. -/
theorem test_dynq : respond1 State.reset 0x900000000018 = some ([0x105800000000], false) ∧
    respond1 State.reset 0x900000000019 = some ([0x000000000000], false) ∧
    respond1 State.reset 0x90000000010D = some ([0x000000000000], false) := by decide
/-- V-W: `u8` gives `d8`, `u32` is absent. -/
theorem test_dync : respond1 State.reset 0xA08800000000 = some ([0x104800000000], false) ∧
    respond1 State.reset 0xA0A000000000 = some ([0x000000000000], false) := by decide
/-- V-F, priority (rule R122): a PACK word with `cs` = 1 and an ill-formed tag is ILLEGAL_CMD. -/
theorem test_illegal_first : respond1 State.reset 0x111900000005 = some ([0x200000000000], true) := by decide

/-! ### Witnesses: each statement's hypotheses are met -/

/-- `demo` meets the invariant, with a value for each slot (EveryStepKeepsTheInvariant, EveryStepAnswersANextState,
EveryRunAnswersOneResponsePerCommand, StatusIsTheFirstFaultConditionThatHolds). -/
theorem witness_demo_inv : demo.Inv := by
  intro i c h
  cases i
  · cases h
    exact ⟨⟨by decide, by decide, fun _ x hx => by cases hx; decide⟩, ⟨5, by decide⟩⟩
  · cases h
    exact ⟨⟨by decide, by decide, fun _ x hx => by cases hx; decide⟩, ⟨0x1ABC, by decide⟩⟩
  · cases h
  · cases h
    exact ⟨⟨by decide, by decide, fun h => absurd (by decide) h⟩, ⟨0, by decide⟩⟩

theorem witness_ResetHasEmptySlotsAndClearFlag : Instr.source (.tou32 .c3) = some .c3 := rfl

theorem witness_EveryStepKeepsTheInvariant :
    demo.Inv ∧ (nextOf (step (demo.placeCommand 0x690000000000))).isSome = true :=
  ⟨witness_demo_inv, by decide⟩

theorem witness_EveryReachableStateMeetsTheInvariant :
    nextOf (Host.Core.run Sys2Proof.core 2 { State.reset with commands := [0x100300000005, 0x400000000000] }) =
      some { State.reset with c0 := some ⟨⟨.marker, 3⟩, [0xA0]⟩, responses := [0, 5] } := by decide

theorem witness_FlagAtTheEndOfARunTellsOfFaults :
    (nextOf (Host.Core.run Sys2Proof.core 1 { State.reset with commands := [0] })).map (·.fseen) = some true ∧
    (nextOf (Host.Core.run Sys2Proof.core 1 { State.reset with commands := [0x900000000000] })).map (·.fseen) =
      some false := by decide

theorem witness_RunOfJoinedListsIsRunOfOneThenTheOther :
    (nextOf (Host.Core.run Sys2Proof.core 1 { demo with commands := [0x200000000000] })).isSome = true := by decide

theorem witness_StepRunsTheDecodedCommand :
    (demo.placeCommand 0x200000000000).commands = [0x200000000000] ∧ decode 0x200000000000 = .command (.tobytes .c0) := by
  decide

theorem witness_IllegalWordsRaiseIllegalCmd : (demo.placeCommand 0).commands = [0] ∧ IllegalWord 0 :=
  ⟨rfl, .inl (by decide)⟩
/-- A word of each clause of `IllegalWord`, and a legal one. -/
theorem witness_IllegalWord_clauses : IllegalWord 0xF00000000000 ∧ IllegalWord 0x110300000005 ∧ IllegalWord 0x240000000000 ∧
    IllegalWord 0x500000000001 ∧ IllegalWord 0x610000000001 ∧ IllegalWord 0x810D00000000 ∧ IllegalWord 0xA00000000001 ∧
    IllegalWord 0x90010000000D :=
  ⟨by decide, by decide, by decide, by decide, by decide, by decide, by decide, by decide⟩
theorem witness_IllegalWord_legal : ¬IllegalWord 0x100000000000 := by decide

theorem witness_IdleBlockHoldsItsState : State.reset.commands = [] := by decide

theorem witness_StepDoesNotDependOnTheHostsLists :
    (nextOf (step { demo with commands := 0x200000000000 :: [0], responses := [1] })).isSome = true := by decide

theorem witness_EncodeOfADecodedWordIsTheWord : decode 0x1C18DEADBEEF = .command (.pack .c3 ⟨.marker, 24⟩ 0xDEADBEEF) := by
  decide

theorem witness_WordIsTheCommandWhoseRowItMatches :
    ((0xB00000000000 : Word48).extractLsb' 44 4).toNat ∈ [0x0, 0x7, 0xB, 0xC, 0xD, 0xE, 0xF] := by decide

theorem witness_OperandsAreReadFromTheirFields :
    decode 0x1FFFFFFFFFFF = .illegal (.unusedFieldSet .pack) ∧
    decode 0x1CFFFFFFFFFF = .command (.pack .c3 ⟨.raw, 63⟩ 0xFFFFFFFF) ∧ decode 0x230000000000 = .command (.tobytes .c3) ∧
    decode 0x6F0000000000 = .command (.clone .c3 .c3) ∧ decode 0x80FF00000000 = .command (.wbits ⟨.raw, 63⟩) ∧
    decode 0x9000FFFFFFFF = .command (.dynq 0xFFFFFFFF) := by decide

theorem witness_EveryResponseIsWellFormed :
    (nextOf (exec (.dynq 1) demo)).isSome = true ∧ respPresent (respond 0 true 0 0x41 0) ≠ 0 := by decide

theorem witness_WbitsAnswersTheBitCount :
    (0x800D00000000 : Word48).extractLsb' 44 4 = 0x8 ∧ (0x800D00000000 : Word48).extractLsb' 40 4 = 0 ∧
    (0x800D00000000 : Word48).extractLsb' 0 32 = 0 ∧ (0x810D00000000 : Word48).extractLsb' 44 4 = 0x8 ∧
    (0x810D00000000 : Word48).extractLsb' 40 4 ≠ 0 ∧ tagOk ⟨.marker, 24⟩ = true ∧ tagOk ⟨.marker, 25⟩ = false := by decide

theorem witness_DynqAnswersTheDynamicWidth :
    (0x900000000018 : Word48).extractLsb' 44 4 = 0x9 ∧ (0x900000000018 : Word48).extractLsb' 32 12 = 0 ∧
    (0x90010000000D : Word48).extractLsb' 32 12 ≠ 0 ∧ (1 ≤ (24 : Word).toNat ∧ (24 : Word).toNat ≤ 24) ∧
    ¬(1 ≤ (25 : Word).toNat ∧ (25 : Word).toNat ≤ 24) ∧ ¬(1 ≤ (0 : Word).toNat ∧ (0 : Word).toNat ≤ 24) := by decide

theorem witness_DyncAnswersTheDynamicWidthOfATag :
    (0xA0A000000000 : Word48).extractLsb' 44 4 = 0xA ∧ (0xA0A000000000 : Word48).extractLsb' 40 4 = 0 ∧
    (0xA0A000000000 : Word48).extractLsb' 0 32 = 0 ∧ (0xA40000000000 : Word48).extractLsb' 40 4 ≠ 0 ∧
    (tagOk ⟨.raw, 24⟩ = true ∧ 1 ≤ (24 : BitVec 6).toNat ∧ (24 : BitVec 6).toNat ≤ 24) ∧
    (tagOk ⟨.raw, 25⟩ = true ∧ ¬(1 ≤ (25 : BitVec 6).toNat ∧ (25 : BitVec 6).toNat ≤ 24)) ∧
    tagOk ⟨.dynamic, 0⟩ = false := by decide

theorem witness_StaticAndDynamicWidthsBehaveAlike :
    (nextOf (exec (.pack .c0 ⟨.marker, 24⟩ 1) demo)).map (·.fseen) = some demo.fseen ∧
    Instr.source (.clone .c1 .c0) = some .c0 ∧ (∀ j, Instr.clone .c1 .c0 ≠ .rdgrp j) ∧
    (nextOf (exec (.tou32 .c0) { demo with c0 := some ⟨⟨.dynamic, 24⟩, [1, 0, 0]⟩ })).isSome = true := by
  refine ⟨by decide, rfl, fun j h => ?_, by decide⟩
  cases h

theorem witness_PackBuildsTheContainer :
    (0x1C18DEADBEEF : Word48).extractLsb' 44 4 = 0x1 ∧ (0x1C18DEADBEEF : Word48).extractLsb' 40 2 = 0 ∧
    (0x110300000005 : Word48).extractLsb' 44 4 = 0x1 ∧ (0x110300000005 : Word48).extractLsb' 40 2 ≠ 0 ∧
    tagOk ⟨.native, 24⟩ = false ∧ (tagOk ⟨.raw, 33⟩ = true ∧ 32 < bits ⟨.raw, 33⟩) ∧
    (tagOk ⟨.raw, 32⟩ = true ∧ bits ⟨.raw, 32⟩ ≤ 32) ∧ (tagOk ⟨.raw, 0⟩ = true ∧ bits ⟨.raw, 0⟩ ≤ 32) := by decide

theorem witness_CloneCopiesTheContainer :
    (0x6F0000000000 : Word48).extractLsb' 44 4 = 0x6 ∧ (0x6F0000000000 : Word48).extractLsb' 0 40 = 0 ∧
    (0x610000000001 : Word48).extractLsb' 44 4 = 0x6 ∧ (0x610000000001 : Word48).extractLsb' 0 40 ≠ 0 ∧
    demo.slot .c2 = none ∧ demo.slot .c3 = some ⟨⟨.raw, 0⟩, []⟩ := by decide

theorem witness_GroupsDependOnTheBitCountOnly :
    tagOk ⟨.marker, 8⟩ = true ∧ tagOk ⟨.native, 8⟩ = true ∧ bits ⟨.marker, 8⟩ = bits ⟨.native, 8⟩ ∧ bits ⟨.marker, 8⟩ ≤ 32 := by
  decide

theorem witness_PackClosedForm : (32 : Nat) ≤ 32 ∧ (31 : Nat) ≤ 32 ∧ rem 31 ≠ 0 ∧ 2 < full 31 := by decide

theorem witness_PackTruncatesSilently :
    tagOk ⟨.dynamic, 13⟩ = true ∧ bits ⟨.dynamic, 13⟩ ≤ 32 ∧ 2 ^ bits ⟨.dynamic, 13⟩ ≤ (0xFFFF : Word).toNat := by decide

theorem witness_WidthAbove32HasNoGroups :
    32 < (33 : Nat) ∧ tagOk ⟨.raw, 33⟩ = true ∧ 32 < bits ⟨.raw, 33⟩ ∧ tagOk ⟨.raw, 63⟩ = true ∧ 32 < bits ⟨.raw, 63⟩ ∧
    (nextOf (exec (.tou32 .c0) demo)).isSome = true := by decide

theorem witness_WidthZeroMakesAValidEmptyContainer : tagOk ⟨.raw, 0⟩ = true ∧ bits ⟨.raw, 0⟩ = 0 := by decide

theorem witness_RawWidths25To31BuildFourGroups :
    25 ≤ bits ⟨.raw, 25⟩ ∧ bits ⟨.raw, 25⟩ ≤ 31 ∧ 25 ≤ bits ⟨.raw, 31⟩ ∧ bits ⟨.raw, 31⟩ ≤ 31 ∧
    (⟨.raw, 31⟩ : Tag).cls = .raw := by decide

theorem witness_TobytesAnswersTheBytes :
    (0x230000000000 : Word48).extractLsb' 44 4 = 0x2 ∧ (0x230000000000 : Word48).extractLsb' 42 2 = 0 ∧
    (0x230000000000 : Word48).extractLsb' 0 40 = 0 ∧ (0x240000000000 : Word48).extractLsb' 42 2 ≠ 0 ∧
    demo.slot .c2 = none ∧ demo.slot .c1 = some ⟨⟨.marker, 13⟩, [0xBC, 0xD0]⟩ ∧
    Container.Sized ⟨⟨.marker, 13⟩, [0xBC, 0xD0]⟩ := by decide

theorem witness_TobyteAnswersTheFirstByte :
    (0x330000000000 : Word48).extractLsb' 44 4 = 0x3 ∧ (0x330000000000 : Word48).extractLsb' 42 2 = 0 ∧
    (0x330000000000 : Word48).extractLsb' 0 40 = 0 ∧ (0x340000000000 : Word48).extractLsb' 42 2 ≠ 0 ∧
    demo.slot .c2 = none ∧ demo.slot .c3 = some ⟨⟨.raw, 0⟩, []⟩ ∧ Container.Sized ⟨⟨.raw, 0⟩, []⟩ := by decide

theorem witness_Tou32AnswersTheValue :
    (0x430000000000 : Word48).extractLsb' 44 4 = 0x4 ∧ (0x430000000000 : Word48).extractLsb' 42 2 = 0 ∧
    (0x430000000000 : Word48).extractLsb' 0 40 = 0 ∧ (0x440000000000 : Word48).extractLsb' 42 2 ≠ 0 ∧
    demo.slot .c2 = none ∧ demo.slot .c0 = some ⟨⟨.marker, 3⟩, [0xA0]⟩ ∧ Container.Sized ⟨⟨.marker, 3⟩, [0xA0]⟩ ∧
    Container.Sized ⟨⟨.raw, 32⟩, [1, 2, 3, 4]⟩ := by decide

theorem witness_RdgrpAnswersTheGroupsAndTheTag :
    (0x530000000000 : Word48).extractLsb' 44 4 = 0x5 ∧ (0x530000000000 : Word48).extractLsb' 42 2 = 0 ∧
    (0x530000000000 : Word48).extractLsb' 0 40 = 0 ∧ (0x500000000001 : Word48).extractLsb' 0 40 ≠ 0 ∧
    demo.slot .c2 = none ∧ demo.slot .c1 = some ⟨⟨.marker, 13⟩, [0xBC, 0xD0]⟩ ∧ [0xBC, (0xD0 : Byte)].length ≤ 4 ∧
    [1, 2, 3, (4 : Byte)].length ≤ 4 := by decide

/-- V-P, widths 13 and 32, value 0xA5C3F096. -/
theorem witness_UnpackOfPackClosedForm : pack 0xA5C3F096 13 = some [0x96, 0x80] ∧
    pack 0xA5C3F096 32 = some [0x96, 0xF0, 0xC3, 0xA5] := by decide

theorem witness_Tou32AfterPackIsTheValueModTwoToTheWidth :
    tagOk ⟨.marker, 13⟩ = true ∧ bits ⟨.marker, 13⟩ ≤ 32 ∧ (0x1ABC : Word).toNat < 2 ^ bits ⟨.marker, 13⟩ ∧
    tagOk ⟨.native, 32⟩ = true ∧ bits ⟨.native, 32⟩ ≤ 32 := by decide

theorem witness_ByteAlignedWidthsMaskTheValue :
    tagOk ⟨.native, 32⟩ = true ∧
    (bits ⟨.native, 32⟩, (0xFFFFFFFF : Word)) ∈ [(8, (0xFF : Word)), (16, 0xFFFF), (24, 0xFFFFFF), (32, 0xFFFFFFFF)] := by
  decide

theorem witness_TobyteAfterPackIsTheLowByteOfTheValue :
    tagOk ⟨.marker, 7⟩ = true ∧ bits ⟨.marker, 7⟩ ≤ 32 ∧ tagOk ⟨.raw, 0⟩ = true ∧ bits ⟨.raw, 0⟩ ≤ 32 := by decide

theorem witness_LengthIsTheMinimalFootprint :
    demo.slot .c3 = some ⟨⟨.raw, 0⟩, []⟩ ∧ Container.Sized ⟨⟨.raw, 0⟩, []⟩ ∧ demo.slot .c0 = some ⟨⟨.marker, 3⟩, [0xA0]⟩ ∧
    Container.Sized ⟨⟨.marker, 3⟩, [0xA0]⟩ := by decide

theorem witness_TobytesAndTou32GiveTheSameData :
    (nextOf (exec (.tobytes .c1) demo)).isSome = true ∧ (nextOf (exec (.tou32 .c1) demo)).isSome = true := by decide

theorem witness_PartialGroupIsLeftAlignedAndItsByteRightAligned :
    pack 0x1ABC 13 = some [0xBC, 0xD0] ∧ unpackBytes [0xBC, 0xD0] 13 = some [0xBC, 0x1A] ∧ rem 13 ≠ 0 ∧ 0 < full 13 := by
  decide

theorem witness_ExtractionOfAMalformedContainerStopsByName :
    broken.slot .c0 = some ⟨⟨.marker, 3⟩, [0, 0, 0, 0, 0]⟩ ∧ ¬Container.Sized ⟨⟨.marker, 3⟩, [0, 0, 0, 0, 0]⟩ ∧
    4 < [0, 0, 0, 0, (0 : Byte)].length := by decide

theorem witness_EmptySlotFaultsUntilTheSlotIsWritten :
    Instr.source (.clone .c0 .c2) = some .c2 ∧ demo.slot .c2 = none ∧
    (nextOf (exec (.clone .c2 .c1) demo)).map (fun t => t.slot .c2 ≠ none ∧ t.slot .c1 ≠ none) = some True ∧
    demo.slot .c1 ≠ none := by
  refine ⟨rfl, rfl, ?_, by decide⟩
  simp [nextOf, exec, execClone, demo, State.reset, State.slot, State.setSlot, State.answer]

theorem witness_FaultWritesNoSlotAndSetsTheFlag :
    (demo.placeCommand 0x420000000000).commands = [0x420000000000] ∧
    (nextOf (step (demo.placeCommand 0x420000000000))).map (·.responses) = some (demo.responses ++ [0x600000000000]) ∧
    respStatus 0x600000000000 ≠ 0 ∧ (nextOf (step { demo with commands := [] })).isSome = true := by decide

/-- Each of the five cases of the status, the boundary values of the tag ranges among them. -/
theorem witness_StatusIsTheFirstFaultConditionThatHolds :
    faultCode 0x111900000005 demo = 1 ∧ faultCode 0x101900000001 demo = 2 ∧ faultCode 0x101800000001 demo = 0 ∧
    faultCode 0x804000000000 demo = 2 ∧ faultCode 0xA0A100000000 demo = 2 ∧ faultCode 0x420000000000 demo = 3 ∧
    faultCode 0x430000000000 demo = 0 ∧ faultCode 0x10E100000001 demo = 4 ∧ faultCode 0x10E000000001 demo = 0 := by decide

theorem witness_WhatIsNotAFault :
    24 < (25 : Word).toNat ∧ (0 : Word).toNat = 0 ∧ tagOk ⟨.native, 32⟩ = true ∧ 24 < bits ⟨.native, 32⟩ ∧
    tagOk ⟨.raw, 0⟩ = true ∧ bits ⟨.raw, 0⟩ = 0 ∧ tagOk ⟨.marker, 3⟩ = true ∧ bits ⟨.marker, 3⟩ ≤ 32 ∧
    demo.slot .c1 ≠ none := by decide

theorem witness_CommandFrame :
    (nextOf (exec (.pack .c2 ⟨.marker, 25⟩ 1) demo)).map (·.responses) = some [0x400000000000] ∧
    respStatus 0x400000000000 ≠ 0 ∧ Instr.dest (.pack .c2 ⟨.marker, 25⟩ 1) ≠ some .c1 := by decide

theorem witness_CloneIsIndependentOfItsSource :
    demo.slot .c1 = some ⟨⟨.marker, 13⟩, [0xBC, 0xD0]⟩ ∧ (nextOf (exec (.clone .c2 .c1) demo)).isSome = true ∧
    Instr.dest (.pack .c1 ⟨.native, 8⟩ 0) ≠ some .c2 ∧ Instr.dest (.pack .c2 ⟨.native, 8⟩ 0) ≠ some .c1 ∧
    (nextOf (exec (.pack .c1 ⟨.native, 8⟩ 0) demo)).isSome = true := by decide

theorem witness_RepeatingACommandChangesNothingMore :
    (nextOf (exec (.clone .c1 .c0) { demo with fseen := true })).isSome = true ∧
    (nextOf (exec (.rdgrp .c0) demo)).isSome = true ∧ Instr.dest (.rdgrp .c0) = none := by decide

theorem witness_CommandDependsOnItsSourceSlotOnly :
    (demo.slot .c1 = { demo with c0 := none, fseen := true }.slot .c1) ∧
    (nextOf (exec (.clone .c2 .c1) demo)).isSome = true ∧
    (nextOf (exec (.clone .c2 .c1) { demo with c0 := none, fseen := true })).isSome = true ∧
    Instr.dest (.clone .c2 .c1) = some .c2 ∧ respStatus respondOk = 0 := by decide

theorem witness_FlagIsStickyAndUnread :
    (nextOf (exec (.tou32 .c2) demo)).map (·.fseen) = some true ∧
    (nextOf (exec (.tou32 .c1) demo)).map (·.fseen) = some false := by decide

end Sys2Proof.Tests
end

/-! # Proofs of the statements about the state (rules R10 to R26)

What a command does is said once, as an `Effect` that depends on its source slot only (`exists_hasEffect`); the frame, the
independence of the host's lists, and the flag are read off from it. The invariant of rule R25 is kept by `exec` and by `step`,
and a run keeps what every step keeps (`run_induction`). -/

section
namespace Sys2Proof.Machine

/-! ### The datapath: well-formed containers are the packed ones -/

/-- A byte shifted left by `k` has `k` zero bits at its low end. -/
theorem shl8_mod_two_pow (x : Byte) {k : Nat} (h : k ≤ 8) : (shl8 x k).toNat % 2 ^ k = 0 := by
  rw [shl8, BitVec.toNat_shiftLeft, Nat.shiftLeft_eq, Nat.mod_mod_of_dvd _ (Nat.pow_dvd_pow 2 h)]
  exact Nat.mul_mod_left _ _

/-- Shifting down and up again keeps a byte whose low bits are zero: construction undoes extraction. -/
theorem shl8_shr8 {x : Byte} {k : Nat} (h : x.toNat % 2 ^ k = 0) : shl8 (shr8 x k) k = x := by
  apply BitVec.eq_of_toNat_eq
  rw [shl8, shr8, BitVec.toNat_shiftLeft, BitVec.toNat_ushiftRight, Nat.shiftLeft_eq, Nat.shiftRight_eq_div_pow,
    Nat.div_mul_cancel (Nat.dvd_of_mod_eq_zero h), Nat.mod_eq_of_lt x.isLt]

/-- Byte `k` of a sequence is digit `k` of its little-endian number. -/
theorem leNat_digit {bytes : List Byte} {k : Nat} {x : Byte} (h : bytes[k]? = some x) :
    leNat bytes / 2 ^ (8 * k) % 2 ^ 8 = x.toNat := by
  induction bytes generalizing k with
  | nil => simp at h
  | cons y ys ih =>
    have hy := y.isLt
    cases k with
    | zero =>
      simp only [List.getElem?_cons_zero, Option.some.injEq] at h
      subst h
      simp only [leNat]
      omega
    | succ k =>
      have hdiv : (y.toNat + 256 * leNat ys) / 2 ^ 8 = leNat ys := by omega
      rw [leNat, Nat.mul_succ, Nat.add_comm (8 * k), Nat.pow_add, ← Nat.div_div_eq_div_mul, hdiv]
      exact ih (by simpa using h)

/-- Byte `k` of the little-endian buffer is byte `k` of the sequence. -/
theorem extractLsb'_leBuffer {bytes : List Byte} (hlen : bytes.length ≤ 4) {k : Nat} {x : Byte} (h : bytes[k]? = some x) :
    (leBuffer bytes).extractLsb' (8 * k) 8 = x := by
  apply BitVec.eq_of_toNat_eq
  rw [BitVec.extractLsb'_toNat, toNat_leBuffer hlen, Nat.shiftRight_eq_div_pow, leNat_digit h]

/-- Sequences of `ngroups b` bytes are equal when their full bytes and, for a partial width, their last bytes are. -/
theorem groups_ext {b : Nat} {g g' : List Byte} (hg : g.length = ngroups b) (hg' : g'.length = ngroups b)
    (hfull : ∀ k < full b, g[k]? = g'[k]?) (hlast : rem b ≠ 0 → g[full b]? = g'[full b]?) : g = g' := by
  apply List.ext_getElem?
  intro k
  by_cases hr : rem b = 0
  · have hn : ngroups b = full b := by simp [ngroups, hr]
    by_cases hk : k < full b
    · exact hfull k hk
    · rw [List.getElem?_eq_none (by omega), List.getElem?_eq_none (by omega)]
  · have hn : ngroups b = full b + 1 := by simp [ngroups, hr]
    rcases Nat.lt_trichotomy k (full b) with hk | rfl | hk
    · exact hfull k hk
    · exact hlast hr
    · rw [List.getElem?_eq_none (by omega), List.getElem?_eq_none (by omega)]

/-- Packing the little-endian value of the bytes of zero-padded groups gives the groups back. -/
theorem pack_leBuffer_unpackBytes {g bytes : List Byte} {b : Nat} (h : unpackBytes g b = some bytes)
    (hpad : rem b ≠ 0 → ∀ x, g[full b]? = some x → x.toNat % 2 ^ (8 - rem b) = 0) :
    pack (leBuffer bytes) b = some g := by
  obtain ⟨hb, hg, hbytes, hfull, hlast⟩ := unpackBytes_spec h
  have hlen : bytes.length ≤ 4 := hbytes ▸ ngroups_le_four hb
  obtain ⟨g', hpack⟩ := pack_isSome_iff (v := leBuffer bytes).2 hb
  obtain ⟨-, hg', hfull', hlast'⟩ := pack_spec hpack
  suffices g' = g by rw [hpack, this]
  refine groups_ext hg' hg (fun k hk => ?_) fun hr => ?_
  · have hkn : k < bytes.length := by
      rw [hbytes, ngroups]
      omega
    rw [hfull' k hk, ← hfull k hk, extractLsb'_leBuffer hlen (List.getElem?_eq_getElem hkn), List.getElem?_eq_getElem hkn]
  · obtain ⟨x, hx, hbx⟩ := hlast hr
    rw [hlast' hr, extractLsb'_leBuffer hlen hbx, shl8_shr8 (hpad hr x hx), hx]

/-- Packed groups are as many as the width asks for and padded with zeros (rule R12 (a), (c), (e)). -/
theorem Container.Packed.sized_padded {c : Container} (h : c.Packed) : c.Sized ∧ c.PaddedWithZeros := by
  obtain ⟨v, hv⟩ := h
  obtain ⟨hb, hlen, -, hlast⟩ := pack_spec hv
  refine ⟨⟨hb, hlen⟩, fun hr x hx => ?_⟩
  obtain rfl := Option.some.inj ((hlast hr).symm.trans hx)
  exact shl8_mod_two_pow _ (Nat.sub_le _ _)

/-- Settles O45: what is packed is sized and padded, and a sized and padded container packs from the value its bytes spell. -/
theorem wellFormedContainersAreThePackedOnes : Obligations.WellFormedContainersAreThePackedOnes := by
  intro c
  refine ⟨fun ⟨hsized, hpad⟩ => ?_, Container.Packed.sized_padded⟩
  obtain ⟨bytes, hbytes⟩ := unpackBytes_isSome_iff.2 hsized
  exact ⟨leBuffer bytes, pack_leBuffer_unpackBytes hbytes hpad⟩

/-! ### The invariant of rule R25 -/

/-- The invariant speaks of the slots only. -/
theorem State.Inv.of_slots_eq {s t : State} (hs : s.Inv) (h : ∀ j, t.slot j = s.slot j) : t.Inv :=
  fun j c hc => hs j c (h j ▸ hc)

theorem State.Inv.setSlot {s : State} (hs : s.Inv) {i : SlotId} {c : Container} (hwf : c.Wf) (hp : c.Packed) :
    (s.setSlot i c).Inv := by
  intro j d hd
  rw [State.slot_setSlot] at hd
  split at hd
  · cases hd
    exact ⟨hwf, hp⟩
  · exact hs j d hd

theorem State.Inv.answer {s : State} (hs : s.Inv) (r : Word48) : (s.answer r).Inv := hs.of_slots_eq (s.slot_answer r)

theorem State.Inv.raise {s : State} (hs : s.Inv) (c : Cause) : (s.raise c).Inv := hs.of_slots_eq (s.slot_raise c)

/-- A container of packed groups with a tag that names a width is well formed. -/
theorem Container.Packed.wf {c : Container} (h : c.Packed) (ht : tagOk c.wt = true) : c.Wf := ⟨ht, h.sized_padded⟩

/-- Every command keeps the invariant: PACK writes packed groups under a good tag, CLONE what a slot held already. -/
theorem exec_keeps_inv {i : Instr} {s t : State} (hs : s.Inv) (h : exec i s = .next t) : t.Inv := by
  obtain ⟨c, rfl⟩ | ⟨-, r, -, rfl⟩ | ⟨cd, tag, v, g, -, htag, hg, rfl⟩ | ⟨cd, cs, c, -, hc, rfl⟩ := exec_cases h
  · exact hs.raise c
  · exact hs.answer r
  · have hp : Container.Packed ⟨tag, g⟩ := ⟨v, hg⟩
    exact (hs.setSlot (hp.wf htag) hp).answer _
  · obtain ⟨hwf, hp⟩ := hs cs c hc
    exact (hs.setSlot hwf hp).answer _

/-- Every step keeps the invariant. -/
theorem step_keeps_inv {s t : State} (hs : s.Inv) (h : step s = .next t) : t.Inv := by
  obtain ⟨-, rfl⟩ | ⟨w, rest, why, -, -, rfl⟩ | ⟨w, rest, i, -, -, hexec⟩ := step_cases h
  · exact hs
  · exact (hs.of_slots_eq (s.slot_with_commands rest)).raise _
  · exact exec_keeps_inv (hs.of_slots_eq (s.slot_with_commands rest)) hexec

theorem inv_reset : State.reset.Inv := by
  intro j c hc
  rw [State.slot_reset] at hc
  cases hc

/-- Settles O4: an idle step, a fault, and each kind of command keep the invariant. -/
theorem everyStepKeepsTheInvariant : Obligations.EveryStepKeepsTheInvariant := fun _ _ => step_keeps_inv

/-- Settles O3: no slot is valid at reset. -/
theorem invariantHoldsAtReset : Obligations.InvariantHoldsAtReset := inv_reset

/-! ### Runs -/

/-- A reflexive and transitive relation that every step obeys holds from the start of a run to its end. -/
theorem run_induction {R : State → State → Prop} (refl : ∀ s, R s s) (trans : ∀ {s u t}, R s u → R u t → R s t)
    (hstep : ∀ {s t}, step s = .next t → R s t) {n : Nat} {s t : State}
    (h : Host.Core.run Sys2Proof.core n s = .next t) : R s t := by
  induction n generalizing s with
  | zero =>
    cases h
    exact refl _
  | succ n ih =>
    obtain ⟨u, hu, hrest⟩ := run_succ_cases h
    exact trans (hstep hu) (ih hrest)

/-- Every run keeps the invariant. -/
theorem run_keeps_inv {n : Nat} {s t : State} (hs : s.Inv) (h : Host.Core.run Sys2Proof.core n s = .next t) : t.Inv :=
  run_induction (R := fun s t => s.Inv → t.Inv) (fun _ => id) (fun hsu hut => hut ∘ hsu)
    (fun hst hs => step_keeps_inv hs hst) h hs

/-- Settles O5: reset meets the invariant, whatever words the host presents, and every run keeps it. -/
theorem everyReachableStateMeetsTheInvariant : Obligations.EveryReachableStateMeetsTheInvariant :=
  fun words _ _ => run_keeps_inv (inv_reset.of_slots_eq (State.reset.slot_with_commands words))

/-! ### The effect of a command -/

/-- What a command or an illegal word does when it does not stop, apart from the state it does it to. -/
inductive Effect where
  /-- a fault is raised (rule R116) -/
  | fault (c : Cause)
  /-- a word with status 0 is answered and nothing written -/
  | reply (r : Word48) (ok : respStatus r = 0)
  /-- a container is written and zero answered (rules R85, R91) -/
  | write (cd : SlotId) (c : Container)

namespace Effect

/-- The state after the effect. -/
def apply : Effect → State → State
  | .fault c, s => s.raise c
  | .reply r _, s => s.answer r
  | .write cd c, s => (s.setSlot cd c).answer respondOk

/-- The one response word of the effect. -/
def response : Effect → Word48
  | .fault c => respond c.code false 0 0 0
  | .reply r _ => r
  | .write _ _ => respondOk

/-- The effect writes what the command may write (rule R15): the destination of PACK or CLONE, or nothing. -/
def Suits (i : Instr) : Effect → Prop
  | .fault _ => True
  | .reply _ _ => i.dest = none
  | .write cd _ => i.dest = some cd

@[simp] theorem commands_apply (e : Effect) (s : State) : (e.apply s).commands = s.commands := by
  cases e <;> simp [apply]

@[simp] theorem responses_apply (e : Effect) (s : State) : (e.apply s).responses = s.responses ++ [e.response] := by
  cases e <;> simp [apply, response]

/-- FSEEN after an effect: set by a fault, else as it was (rule R18). -/
theorem fseen_apply (e : Effect) (s : State) :
    (e.apply s).fseen = (s.fseen || decide (respStatus e.response ≠ 0)) := by
  cases e with
  | fault c => simp [apply, response]
  | reply r ok => simp [apply, response, ok]
  | write cd c => simp [apply, response, respondOk]

variable {e : Effect} {i : Instr}

/-- A slot that is not the command's destination stays as it is. -/
theorem Suits.slot_apply_of_ne_dest (h : e.Suits i) (s : State) {j : SlotId} (hj : i.dest ≠ some j) :
    (e.apply s).slot j = s.slot j := by
  cases e with
  | fault c => exact s.slot_raise c j
  | reply r _ => exact s.slot_answer r j
  | write cd c =>
    have hne : j ≠ cd := fun hjc => hj (hjc ▸ h)
    rw [apply, State.slot_answer, State.slot_setSlot_ne _ _ hne]

/-- An effect that is a fault writes no slot. -/
theorem slot_apply_of_status_ne_zero (h : respStatus e.response ≠ 0) (s : State) (j : SlotId) :
    (e.apply s).slot j = s.slot j := by
  cases e with
  | fault c => exact s.slot_raise c j
  | reply r _ => exact s.slot_answer r j
  | write cd c => exact absurd (respStatus_respond 0 false 0 0 0) h

/-- What an effect with status 0 leaves in the command's destination does not depend on the state. -/
theorem Suits.slot_apply_dest (h : e.Suits i) (s s' : State) {cd : SlotId} (hd : i.dest = some cd)
    (hr : respStatus e.response = 0) : (e.apply s).slot cd = (e.apply s').slot cd := by
  cases e with
  | fault c => exact absurd ((respStatus_respond ..).symm.trans hr) c.code_ne_zero
  | reply r _ => exact absurd (Eq.trans (Eq.symm h) hd) (by simp)
  | write cd' c =>
    obtain rfl := Option.some.inj (Eq.trans (Eq.symm h) hd)
    simp [apply]

/-- An effect neither reads the host's lists nor does more to them than append its response. -/
theorem apply_with_lists (e : Effect) (s : State) (ws rs : List Word48) :
    e.apply { s with commands := ws, responses := rs } =
      { e.apply s with commands := ws, responses := rs ++ [e.response] } := by
  cases e with
  | fault c => rfl
  | reply r _ => rfl
  | write cd c => cases cd <;> rfl

/-- An effect does not read FSEEN. -/
theorem apply_with_fseen (e : Effect) (s : State) (f : Bool) :
    e.apply { s with fseen := f } = { e.apply s with fseen := f || decide (respStatus e.response ≠ 0) } := by
  refine State.ext_slots (fun j => ?_) (e.fseen_apply _) (by simp) (by simp)
  rw [(e.apply s).slot_with_fseen _ j]
  cases e with
  | fault c => simp [apply]
  | reply r _ => simp [apply]
  | write cd c => simp [apply, State.slot_setSlot]

end Effect

/-- In `s`, and in every state that agrees with it on the slot the command reads, the command has the effect `e`. -/
def HasEffect (i : Instr) (s : State) (e : Effect) : Prop :=
  e.Suits i ∧ ∀ s', (∀ cs, i.source = some cs → s.slot cs = s'.slot cs) → exec i s' = .next (e.apply s')

theorem HasEffect.eq_apply {i : Instr} {s t : State} {e : Effect} (he : HasEffect i s e) (h : exec i s = .next t) :
    t = e.apply s :=
  Host.Outcome.next.inj (h.symm.trans (he.2 s fun _ _ => rfl))

/-- The four commands that share `extract` depend on their source slot only. -/
theorem exists_hasEffect_of_extract {i : Instr} {cs : SlotId} {f : Container → Option Word48}
    (hexec : ∀ s, exec i s = extract s cs f) (hsource : i.source = some cs) (hdest : i.dest = none)
    (hstatus : ∀ {c r}, f c = some r → respStatus r = 0) {s t : State} (h : exec i s = .next t) :
    ∃ e, HasEffect i s e := by
  rw [hexec] at h
  obtain ⟨hc, -⟩ | ⟨c, r, hc, hr, -⟩ := extract_cases h
  · exact ⟨.fault .emptySlot, trivial, fun s' hs => by rw [hexec, extract_empty (hs cs hsource ▸ hc)]; rfl⟩
  · exact ⟨.reply r (hstatus hr), hdest, fun s' hs => by rw [hexec, extract_some (hs cs hsource ▸ hc) hr]; rfl⟩

/-- What a command does is an effect that its source slot determines (rules R21, R23, R40). -/
theorem exists_hasEffect {i : Instr} {s t : State} (h : exec i s = .next t) : ∃ e, HasEffect i s e := by
  cases i with
  | pack cd tag v =>
    cases htag : tagOk tag with
    | false => exact ⟨.fault .badTag, trivial, fun _ _ => execPack_bad htag⟩
    | true =>
      by_cases hb : bits tag ≤ 32
      · obtain ⟨g, hg⟩ := pack_isSome_iff (v := v).2 hb
        exact ⟨.write cd ⟨tag, g⟩, rfl, fun _ _ => execPack_ok htag hg⟩
      · exact ⟨.fault .widthOverflow, trivial, fun _ _ => execPack_overflow htag (by omega)⟩
  | tobytes cs =>
    refine exists_hasEffect_of_extract (fun _ => rfl) rfl rfl (fun hr => ?_) h
    obtain ⟨bytes, -, rfl⟩ := tobytesResponse_cases hr
    exact respStatus_respond ..
  | tobyte cs =>
    refine exists_hasEffect_of_extract (fun _ => rfl) rfl rfl (fun hr => ?_) h
    obtain ⟨bytes, -, rfl⟩ := tobyteResponse_cases hr
    exact respStatus_respond ..
  | tou32 cs =>
    refine exists_hasEffect_of_extract (fun _ => rfl) rfl rfl (fun hr => ?_) h
    obtain ⟨bytes, -, rfl⟩ := tou32Response_cases hr
    exact respStatus_respond ..
  | rdgrp cs =>
    refine exists_hasEffect_of_extract (fun _ => rfl) rfl rfl (fun hr => ?_) h
    obtain ⟨-, rfl⟩ := rdgrpResponse_cases hr
    exact respStatus_respond ..
  | clone cd cs =>
    cases hc : s.slot cs with
    | none => exact ⟨.fault .emptySlot, trivial, fun _ hs => execClone_empty (hs cs rfl ▸ hc)⟩
    | some c => exact ⟨.write cd c, rfl, fun _ hs => execClone_some (hs cs rfl ▸ hc)⟩
  | wbits tag =>
    cases htag : tagOk tag with
    | false => exact ⟨.fault .badTag, trivial, fun _ _ => execWbits_bad htag⟩
    | true => exact ⟨.reply _ (respStatus_respond ..), rfl, fun _ _ => execWbits_ok htag⟩
  | dynq n => exact ⟨.reply _ (respStatus_dynamicResponse _), rfl, fun _ _ => rfl⟩
  | dync tag =>
    cases htag : tagOk tag with
    | false => exact ⟨.fault .badTag, trivial, fun _ _ => execDync_bad htag⟩
    | true => exact ⟨.reply _ (respStatus_dynamicResponse _), rfl, fun _ _ => execDync_ok htag⟩

/-! ### Frames and independence of one command -/

/-- Settles O52: read off from the command's effect. -/
theorem commandFrame : Obligations.CommandFrame := by
  intro i s t h
  obtain ⟨e, he⟩ := exists_hasEffect h
  obtain rfl := he.eq_apply h
  exact ⟨fun j hj => he.1.slot_apply_of_ne_dest s hj, e.commands_apply s, e.response, e.responses_apply s,
    e.fseen_apply s, fun hr j => Effect.slot_apply_of_status_ne_zero hr s j⟩

/-- Settles O53: CLONE copies the container, and the frame of the next command keeps the slot it does not write. -/
theorem cloneIsIndependentOfItsSource : Obligations.CloneIsIndependentOfItsSource := by
  intro cd cs s t c hc h
  have ht : t = (s.setSlot cd c).answer respondOk := Host.Outcome.next.inj (h.symm.trans (execClone_some hc))
  have hcd : t.slot cd = some c := by simp [ht]
  have hcs : t.slot cs = some c := by simp [ht, State.slot_setSlot, hc]
  refine ⟨hcd, hcs, fun i u hu => ?_⟩
  obtain ⟨hframe, -⟩ := commandFrame i t u hu
  exact ⟨fun hi => (hframe cd hi).trans hcd, fun hi => (hframe cs hi).trans hcs⟩

/-- Settles O55: the effect the source slot determines is had in both states. -/
theorem commandDependsOnItsSourceSlotOnly : Obligations.CommandDependsOnItsSourceSlotOnly := by
  intro i s s' t t' hagree h h'
  obtain ⟨e, he⟩ := exists_hasEffect h
  obtain rfl := he.eq_apply h
  obtain rfl := Host.Outcome.next.inj ((he.2 s' hagree).symm.trans h')
  exact ⟨e.response, e.responses_apply s, e.responses_apply s', fun cd hd hr => he.1.slot_apply_dest s s' hd hr⟩

/-- Settles O56: an effect sets FSEEN when it is a fault and else keeps it, and is the same whatever FSEEN holds. -/
theorem flagIsStickyAndUnread : Obligations.FlagIsStickyAndUnread := by
  refine ⟨rfl, fun i s t h => ?_⟩
  obtain ⟨e, he⟩ := exists_hasEffect h
  obtain rfl := he.eq_apply h
  refine ⟨⟨e.response, e.responses_apply s, by simp [e.fseen_apply s]⟩,
    fun f => ⟨f || decide (respStatus e.response ≠ 0), ?_, fun hf => by simp [hf]⟩⟩
  rw [he.2 { s with fseen := f } fun cs _ => (s.slot_with_fseen f cs).symm, e.apply_with_fseen]

/-! ### Steps: the host's lists and the flag -/

theorem step_of_command {s : State} {w : Word48} {rest : List Word48} {i : Instr} (hc : s.commands = w :: rest)
    (hd : decode w = .command i) : step s = exec i { s with commands := rest } := by
  simp [step, State.takeCommand_cons hc, hd]

theorem step_of_illegal {s : State} {w : Word48} {rest : List Word48} {why : DecodeError} (hc : s.commands = w :: rest)
    (hd : decode w = .illegal why) : step s = .next (({ s with commands := rest } : State).raise .illegalCmd) := by
  simp [step, State.takeCommand_cons hc, hd]

/-- A step with a word presented has an effect that the slots and the word determine. -/
theorem exists_step_effect {s t : State} {w : Word48} {rest : List Word48} (hc : s.commands = w :: rest)
    (h : step s = .next t) :
    ∃ e : Effect, ∀ (s' : State) (rest' : List Word48), s'.commands = w :: rest' → (∀ j, s.slot j = s'.slot j) →
      step s' = .next (e.apply { s' with commands := rest' }) := by
  cases hd : decode w with
  | illegal why => exact ⟨.fault .illegalCmd, fun s' rest' hc' _ => step_of_illegal hc' hd⟩
  | command i =>
    rw [step_of_command hc hd] at h
    obtain ⟨e, -, he⟩ := exists_hasEffect h
    refine ⟨e, fun s' rest' hc' hslots => ?_⟩
    rw [step_of_command hc' hd, he _ fun cs _ => by simp [hslots]]

/-- Settles O13: the effect of the step is the same on the other lists, and appends the same response. -/
theorem stepDoesNotDependOnTheHostsLists : Obligations.StepDoesNotDependOnTheHostsLists := by
  intro s t w later earlier h
  obtain ⟨e, he⟩ := exists_step_effect rfl h
  have hstep : ∀ later' earlier', step { s with commands := w :: later', responses := earlier' } =
      .next { e.apply s with commands := later', responses := earlier' ++ [e.response] } := fun later' earlier' => by
    rw [he _ later' rfl fun j => by cases j <;> rfl, ← e.apply_with_lists]
  obtain rfl := Host.Outcome.next.inj (h.symm.trans (hstep later earlier))
  exact ⟨e.response, rfl, rfl, hstep⟩

/-- From `s` to `t` the responses grow, and FSEEN at `t` tells of a fault among the new ones (rule R18). -/
def FlagTells (s t : State) : Prop :=
  ∃ answers, t.responses = s.responses ++ answers ∧
    (t.fseen = true ↔ s.fseen = true ∨ ∃ r ∈ answers, respStatus r ≠ 0)

theorem FlagTells.refl (s : State) : FlagTells s s := ⟨[], by simp⟩

theorem FlagTells.trans {s u t : State} (hsu : FlagTells s u) (hut : FlagTells u t) : FlagTells s t := by
  obtain ⟨first, hfirst, hu⟩ := hsu
  obtain ⟨second, hsecond, ht⟩ := hut
  refine ⟨first ++ second, by rw [hsecond, hfirst, List.append_assoc], ?_⟩
  rw [ht, hu, or_assoc]
  simp only [List.mem_append, or_and_right, exists_or]

theorem flagTells_of_step {s t : State} (h : step s = .next t) : FlagTells s t := by
  cases hc : s.commands with
  | nil =>
    have ht : step s = .next s := by simp [step, State.takeCommand_nil hc]
    obtain rfl := Host.Outcome.next.inj (ht.symm.trans h)
    exact .refl s
  | cons w rest =>
    obtain ⟨e, he⟩ := exists_step_effect hc h
    obtain rfl := Host.Outcome.next.inj ((he s rest hc fun _ => rfl).symm.trans h)
    exact ⟨[e.response], e.responses_apply _, by simp [e.fseen_apply]⟩

/-- Settles O8: a step's flag tells of its response, and what tells step by step tells over a run. -/
theorem flagAtTheEndOfARunTellsOfFaults : Obligations.FlagAtTheEndOfARunTellsOfFaults :=
  fun _ _ _ => run_induction FlagTells.refl FlagTells.trans flagTells_of_step

/-! ### Empty slots at reset, malformed containers -/

/-- Every command that reads an empty slot faults EMPTY_SLOT (rule R119). -/
theorem exec_source_empty {i : Instr} {cs : SlotId} {s : State} (hi : i.source = some cs) (hs : s.slot cs = none) :
    exec i s = .next (s.raise .emptySlot) := by
  cases i with
  | pack | wbits | dynq | dync => cases hi
  | tobytes | tobyte | tou32 | rdgrp =>
    cases hi
    exact extract_empty hs
  | clone =>
    cases hi
    exact execClone_empty hs

/-- Settles O1: at reset every slot is empty, so every command that reads one faults. -/
theorem resetHasEmptySlotsAndClearFlag : Obligations.ResetHasEmptySlotsAndClearFlag :=
  ⟨State.slot_reset, rfl, fun _ cs hi => exec_source_empty hi (State.slot_reset cs)⟩

/-- Extraction stops by name where the answer is not defined. -/
theorem extract_stops {s : State} {cs : SlotId} {f : Container → Option Word48} {c : Container} (hc : s.slot cs = some c)
    (hf : f c = none) : extract s cs f = .fault .malformedContainer := by simp [extract, hc, hf]

theorem unpackBytes_eq_none {c : Container} (h : ¬c.Sized) : unpackBytes c.g (bits c.wt) = none :=
  Option.eq_none_iff_forall_ne_some.2 fun bytes hb => h (unpackBytes_isSome_iff.1 ⟨bytes, hb⟩)

theorem pad4_eq_none {bytes : List Byte} (h : 4 < bytes.length) : pad4 bytes = none :=
  Option.eq_none_iff_forall_ne_some.2 fun d hd => Nat.not_le.2 h (pad4_isSome_iff.1 ⟨d, hd⟩)

/-- Settles O47: outside their domain `unpack_bytes` and `pad4` have no answer, and so the command has none. -/
theorem extractionOfAMalformedContainerStopsByName : Obligations.ExtractionOfAMalformedContainerStopsByName := by
  intro cs s c hc
  refine ⟨fun hsized => ?_, fun hlen => extract_stops hc (by simp [rdgrpResponse, pad4_eq_none hlen])⟩
  have hu := unpackBytes_eq_none hsized
  exact ⟨extract_stops hc (by simp [tobytesResponse, hu]), extract_stops hc (by simp [tobyteResponse, firstByte, hu]),
    extract_stops hc (by simp [tou32Response, hu])⟩

end Sys2Proof.Machine
end

/-! # Proofs of the statements about order and storage (rules R32, R37, R39)

A run goes command by command: from a state with the invariant each presented word is executed and answered once, and what a
step does to everything but the words still to come does not depend on them. A command done again finds its source slot as it was,
so it has the same effect again; and the two views of a partial group hold the same value bits, shifted. -/

section
namespace Sys2Proof.Machine

/-! ### One step answers -/

/-- Settles O10: taking the word and decoding it leaves `exec`. -/
theorem stepRunsTheDecodedCommand : Obligations.StepRunsTheDecodedCommand := fun _ _ _ _ => step_of_command

/-- Extraction answers when the container of the slot, if it holds one, has an answer. -/
theorem exists_extract_next {s : State} {cs : SlotId} {f : Container → Option Word48}
    (hf : ∀ c, s.slot cs = some c → ∃ r, f c = some r) : ∃ t, extract s cs f = .next t := by
  cases hc : s.slot cs with
  | none => exact ⟨_, extract_empty hc⟩
  | some c =>
    obtain ⟨r, hr⟩ := hf c hc
    exact ⟨_, extract_some hc hr⟩

/-- What a slot holds in a state with the invariant is in the domain of `unpack_bytes` (rules R25, R95). -/
theorem State.Inv.exists_unpackBytes {s : State} (hs : s.Inv) {j : SlotId} {c : Container} (hc : s.slot j = some c) :
    ∃ bytes, unpackBytes c.g (bits c.wt) = some bytes := by
  obtain ⟨⟨-, hsized, -⟩, -⟩ := hs j c hc
  exact unpackBytes_isSome_iff.2 hsized

/-- No command stops in a state with the invariant: only the four extractions could, and every slot is in their domain. -/
theorem exists_exec_next {s : State} (hs : s.Inv) (i : Instr) : ∃ t, exec i s = .next t := by
  cases i with
  | pack cd tag v =>
    cases htag : tagOk tag with
    | false => exact ⟨_, execPack_bad htag⟩
    | true =>
      by_cases hb : bits tag ≤ 32
      · obtain ⟨g, hg⟩ := pack_isSome_iff (v := v).2 hb
        exact ⟨_, execPack_ok htag hg⟩
      · exact ⟨_, execPack_overflow htag (by omega)⟩
  | tobytes cs =>
    refine exists_extract_next fun c hc => ?_
    obtain ⟨bytes, hbytes⟩ := hs.exists_unpackBytes hc
    exact ⟨_, tobytesResponse_eq hbytes⟩
  | tobyte cs =>
    refine exists_extract_next fun c hc => ?_
    obtain ⟨bytes, hbytes⟩ := hs.exists_unpackBytes hc
    exact ⟨_, tobyteResponse_eq hbytes⟩
  | tou32 cs =>
    refine exists_extract_next fun c hc => ?_
    obtain ⟨bytes, hbytes⟩ := hs.exists_unpackBytes hc
    exact ⟨_, tou32Response_eq hbytes⟩
  | rdgrp cs =>
    refine exists_extract_next fun c hc => ?_
    obtain ⟨⟨-, ⟨hb, hlen⟩, -⟩, -⟩ := hs cs c hc
    exact ⟨_, rdgrpResponse_eq (hlen ▸ ngroups_le_four hb)⟩
  | clone cd cs =>
    cases hc : s.slot cs with
    | none => exact ⟨_, execClone_empty hc⟩
    | some c => exact ⟨_, execClone_some hc⟩
  | wbits tag =>
    cases htag : tagOk tag with
    | false => exact ⟨_, execWbits_bad htag⟩
    | true => exact ⟨_, execWbits_ok htag⟩
  | dynq n => exact ⟨_, rfl⟩
  | dync tag =>
    cases htag : tagOk tag with
    | false => exact ⟨_, execDync_bad htag⟩
    | true => exact ⟨_, execDync_ok htag⟩

/-- No step stops in a state with the invariant (rules R116, R117). -/
theorem exists_step_next {s : State} (hs : s.Inv) : ∃ t, step s = .next t := by
  cases hc : s.commands with
  | nil => exact ⟨s, by simp [step, State.takeCommand_nil hc]⟩
  | cons w rest =>
    cases hd : decode w with
    | illegal why => exact ⟨_, step_of_illegal hc hd⟩
    | command i =>
      rw [step_of_command hc hd]
      exact exists_exec_next (hs.of_slots_eq (s.slot_with_commands rest)) i

/-- A step with a word presented takes that word and answers one response (rules R39, R50). -/
theorem step_takes_and_answers_one {s t : State} {w : Word48} {rest : List Word48} (hc : s.commands = w :: rest)
    (h : step s = .next t) : t.commands = rest ∧ ∃ r, t.responses = s.responses ++ [r] := by
  obtain ⟨e, he⟩ := exists_step_effect hc h
  obtain rfl := Host.Outcome.next.inj ((he s rest hc fun _ => rfl).symm.trans h)
  exact ⟨e.commands_apply _, e.response, e.responses_apply _⟩

/-! ### Runs over lists of commands -/

/-- Settles O7, by induction on the words still to come: the step answers, keeps the invariant, takes one and answers one. -/
theorem everyRunAnswersOneResponsePerCommand : Obligations.EveryRunAnswersOneResponsePerCommand := by
  intro s hs
  induction hc : s.commands generalizing s with
  | nil => exact ⟨s, [], rfl, hs, hc, by simp, rfl⟩
  | cons w rest ih =>
    obtain ⟨u, hu⟩ := exists_step_next hs
    obtain ⟨hrest, r, hr⟩ := step_takes_and_answers_one hc hu
    obtain ⟨t, answers, hrun, ht, hnil, hanswers, hlen⟩ := ih u (step_keeps_inv hs hu) hrest
    refine ⟨t, r :: answers, (run_succ_of_next hu).trans hrun, ht, hnil, ?_, by simp [hlen]⟩
    rw [hanswers, hr, List.append_assoc, List.singleton_append]

/-- The words after the first are only kept by a step: with others in their place it does the same (rule R39). -/
theorem step_with_later_commands {s u : State} {w : Word48} {rest : List Word48}
    (h : step { s with commands := w :: rest } = .next u) :
    u.commands = rest ∧ ∀ rest', step { s with commands := w :: rest' } = .next { u with commands := rest' } := by
  obtain ⟨r, hr, hrest, hstep⟩ := stepDoesNotDependOnTheHostsLists s u w rest s.responses h
  refine ⟨hrest, fun rest' => ?_⟩
  rw [hstep rest' s.responses, ← hr]

/-- Settles O9, by induction on the first list: its first word's step is the same before the joined rest. -/
theorem runOfJoinedListsIsRunOfOneThenTheOther : Obligations.RunOfJoinedListsIsRunOfOneThenTheOther := by
  intro first second s t h
  induction first generalizing s with
  | nil =>
    cases h
    rfl
  | cons w rest ih =>
    obtain ⟨u, hu, hrun⟩ := run_succ_cases h
    obtain ⟨rfl, hstep⟩ := step_with_later_commands hu
    exact (run_succ_of_next (hstep (u.commands ++ second))).trans (ih u hrun)

/-! ### Doing a command again -/

/-- No command changes the slot it reads: even CLONE onto itself writes what the slot held. -/
theorem slot_source_of_exec {i : Instr} {cs : SlotId} {s t : State} (hi : i.source = some cs) (h : exec i s = .next t) :
    t.slot cs = s.slot cs := by
  obtain ⟨c, rfl⟩ | ⟨-, r, -, rfl⟩ | ⟨cd, tag, v, g, rfl, -, -, -⟩ | ⟨cd, cs', c, rfl, hc, rfl⟩ := exec_cases h
  · exact s.slot_raise c cs
  · exact s.slot_answer r cs
  · cases hi
  · cases hi
    simp [State.slot_setSlot, hc]

/-- An effect had twice only answers once more: FSEEN is set already, and the slot holds the container already. -/
theorem Effect.apply_apply (e : Effect) (s : State) : e.apply (e.apply s) = (e.apply s).answer e.response := by
  cases e with
  | fault c => rfl
  | reply r _ => rfl
  | write cd c => rw [apply, State.setSlot_eq_self _ (by simp [apply]), response]

/-- Settles O54: the source slot is as it was, so the command has its effect again; a command without a destination writes no
slot; an effect leaves FSEEN set. -/
theorem repeatingACommandChangesNothingMore : Obligations.RepeatingACommandChangesNothingMore := by
  intro i s t h
  obtain ⟨e, he⟩ := exists_hasEffect h
  have hsource : ∀ cs, i.source = some cs → s.slot cs = t.slot cs := fun cs hi => (slot_source_of_exec hi h).symm
  have hagain := he.2 t hsource
  obtain rfl := he.eq_apply h
  rw [e.apply_apply] at hagain
  refine ⟨⟨e.response, e.responses_apply s, hagain⟩,
    fun hdest => ⟨fun j => ?_, fun s' t' hslots h' => ?_⟩, fun hf => ?_⟩
  · exact he.1.slot_apply_of_ne_dest s (by simp [hdest])
  · obtain rfl := Host.Outcome.next.inj ((he.2 s' fun cs _ => (hslots cs).symm).symm.trans h')
    exact ⟨e.response, e.responses_apply s, e.responses_apply s'⟩
  · simp [e.fseen_apply, hf]

/-! ### The two views of a partial group, bit by bit -/

/-- Shifted up by `8 - r`, a byte of the value has its low `r` bits at stream positions 0 to `r - 1`, the most significant first,
and zeros after (rule R31: position `i` is bit `7 - i`). -/
theorem getLsbD_shl8_extract (v : Word) (k : Nat) {r i : Nat} (hr : r ≤ 8) (hi : i < 8) :
    (shl8 (v.extractLsb' k 8) (8 - r)).getLsbD (7 - i) = (decide (i < r) && v.getLsbD (k + (r - 1 - i))) := by
  rw [shl8, BitVec.getLsbD_shiftLeft, BitVec.getLsbD_extractLsb']
  by_cases hir : i < r
  · have hpos : 7 - i - (8 - r) = r - 1 - i := by omega
    simp [hir, hpos, show 7 - i < 8 by omega, show ¬7 - i < 8 - r by omega, show r - 1 - i < 8 by omega]
  · simp [hir, show 7 - i < 8 - r by omega]

/-- Shifted down again, the byte has the same `r` bits at its low end, and zeros above (rule R32). -/
theorem getLsbD_shr8_shl8_extract (v : Word) (k : Nat) {r i : Nat} (hr : r ≤ 8) (hi : i < 8) :
    (shr8 (shl8 (v.extractLsb' k 8) (8 - r)) (8 - r)).getLsbD i = (decide (i < r) && v.getLsbD (k + i)) := by
  rw [shr8, BitVec.getLsbD_ushiftRight]
  by_cases hir : i < r
  · have hpos : 8 - r + i = 7 - (r - 1 - i) := by omega
    have hback : r - 1 - (r - 1 - i) = i := by omega
    rw [hpos, getLsbD_shl8_extract v k hr (by omega), hback]
    simp [hir, show r - 1 - i < r by omega]
  · simp [hir, BitVec.getLsbD_of_ge _ _ (show 8 ≤ 8 - r + i by omega)]

/-- Settles O46: the last group is the value's byte shifted up by `8 - rem`, its byte that group shifted down again. -/
theorem partialGroupIsLeftAlignedAndItsByteRightAligned :
    Obligations.PartialGroupIsLeftAlignedAndItsByteRightAligned := by
  intro v b g bytes hpack hunpack
  obtain ⟨-, -, -, hgroup⟩ := pack_spec hpack
  obtain ⟨-, -, -, hfull, hbyte⟩ := unpackBytes_spec hunpack
  refine ⟨fun k hk => (hfull k hk).symm, fun hr => ?_⟩
  obtain ⟨x, hx, hy⟩ := hbyte hr
  obtain rfl := Option.some.inj ((hgroup hr).symm.trans hx)
  have hrem : rem b ≤ 8 := (full_rem b).2.le
  exact ⟨_, _, hx, hy, fun i hi =>
    ⟨getLsbD_shl8_extract v _ hrem hi, getLsbD_shr8_shl8_extract v _ hrem hi⟩⟩

end Sys2Proof.Machine
end

/-! # Proofs of the statements about the encoding (rules R45 to R56)

An encoded word has its row's opcode, zero in the unused fields, and the operands in their fields; a word that decodes is put
together again from the fields the decoder read. The two round trips give the other statements about words. A written line is a
mnemonic, a space and operands joined by ", ", which `readLine` takes apart again. A response is read field by field. -/

section
namespace Sys2Proof

/-! ### Command words -/

/-- An encoded command has its row's opcode and zero in the fields it does not use. -/
theorem encode_row (i : Instr) : opField (encode i) = i.op.code ∧ i.op.UnusedZero (encode i) := by
  cases i with
  | pack cd t value => exact Laws.EncodedRow.pack cd t value
  | tobytes cs => exact Laws.EncodedRow.tobytes cs
  | tobyte cs => exact Laws.EncodedRow.tobyte cs
  | tou32 cs => exact Laws.EncodedRow.tou32 cs
  | rdgrp cs => exact Laws.EncodedRow.rdgrp cs
  | clone cd cs => exact Laws.EncodedRow.clone cd cs
  | wbits t => exact Laws.EncodedRow.wbits t
  | dynq n => exact Laws.EncodedRow.dynq n
  | dync t => exact Laws.EncodedRow.dync t

/-- The operand fields of an encoded command hold its operands. -/
theorem readOperands_encode (i : Instr) : readOperands i.op (encode i) = i := by
  cases i <;> simp [readOperands, Instr.op, encode]

/-- Settles O14: the encoded word is of the command's row, and the operands read from it are the command's. -/
theorem decodeOfEncodeIsTheCommand : Obligations.DecodeOfEncodeIsTheCommand := by
  intro i
  obtain ⟨hcode, hunused⟩ := encode_row i
  rw [decode_of_unusedZero hcode hunused, readOperands_encode]

/-- A word of a row is the encoding of the command read from it: its other fields are the opcode and zeros. -/
theorem encode_readOperands {w : Word48} {o : Op} (hcode : opField w = o.code) (hunused : o.UnusedZero w) :
    encode (readOperands o w) = w := by
  conv_rhs => rw [← commandWord_fields w, hcode]
  cases o with
  | pack =>
    have hcs : csField w = 0 := hunused
    simp [encode, readOperands, Op.code, Tag.toBits_tagField, hcs]
  | tobytes | tobyte | tou32 | rdgrp =>
    obtain ⟨hcd, htag, himm⟩ := hunused
    simp [encode, readOperands, Op.code, hcd, htag, himm]
  | clone =>
    obtain ⟨htag, himm⟩ := hunused
    simp [encode, readOperands, Op.code, htag, himm]
  | wbits | dync =>
    obtain ⟨hcd, hcs, himm⟩ := hunused
    simp [encode, readOperands, Op.code, Tag.toBits_tagField, hcd, hcs, himm]
  | dynq =>
    obtain ⟨hcd, hcs, htag⟩ := hunused
    simp [encode, readOperands, Op.code, hcd, hcs, htag]

theorem encode_of_decode {w : Word48} {i : Instr} (h : decode w = .command i) : encode i = w := by
  obtain ⟨o, hcode, hunused, rfl⟩ := decode_eq_command_iff.1 h
  exact encode_readOperands hcode hunused

/-- Settles O15: a word that decodes is put together again from its fields. -/
theorem encodeOfADecodedWordIsTheWord : Obligations.EncodeOfADecodedWordIsTheWord := fun _ _ => encode_of_decode

/-- A word that decodes to a command meets the match and mask of the command's row (rule R47). -/
theorem matches_of_decode {w : Word48} {i : Instr} (h : decode w = .command i) : w &&& i.op.mask = i.op.pattern := by
  rw [← encode_of_decode h]
  exact (i.op.matches_iff _).2 (encode_row i)

/-- A word that meets the match and mask of a row decodes to a command of that row (rule R47). -/
theorem decode_of_matches {w : Word48} (o : Op) (h : w &&& o.mask = o.pattern) : decode w = .command (readOperands o w) := by
  obtain ⟨hcode, hunused⟩ := (o.matches_iff w).1 h
  exact decode_of_unusedZero hcode hunused

/-- Settles O16: row by row, and a reserved opcode has no row. -/
theorem wordIsTheCommandWhoseRowItMatches : Obligations.WordIsTheCommandWhoseRowItMatches := by
  intro w
  refine ⟨⟨fun ⟨_, _, _, h⟩ => matches_of_decode h, fun h => ⟨_, _, _, decode_of_matches .pack h⟩⟩,
    ⟨fun ⟨_, h⟩ => matches_of_decode h, fun h => ⟨_, decode_of_matches .tobytes h⟩⟩,
    ⟨fun ⟨_, h⟩ => matches_of_decode h, fun h => ⟨_, decode_of_matches .tobyte h⟩⟩,
    ⟨fun ⟨_, h⟩ => matches_of_decode h, fun h => ⟨_, decode_of_matches .tou32 h⟩⟩,
    ⟨fun ⟨_, h⟩ => matches_of_decode h, fun h => ⟨_, decode_of_matches .rdgrp h⟩⟩,
    ⟨fun ⟨_, _, h⟩ => matches_of_decode h, fun h => ⟨_, _, decode_of_matches .clone h⟩⟩,
    ⟨fun ⟨_, h⟩ => matches_of_decode h, fun h => ⟨_, decode_of_matches .wbits h⟩⟩,
    ⟨fun ⟨_, h⟩ => matches_of_decode h, fun h => ⟨_, decode_of_matches .dynq h⟩⟩,
    ⟨fun ⟨_, h⟩ => matches_of_decode h, fun h => ⟨_, decode_of_matches .dync h⟩⟩, fun hreserved => ?_⟩
  have hnone : Op.ofCode (opField w) = none := (Op.ofCode_eq_none_iff _).2 hreserved
  exact ⟨_, by rw [decode, hnone]⟩

/-- Settles O17: the word is the encoding of the command, which has each operand in its field. -/
theorem operandsAreReadFromTheirFields : Obligations.OperandsAreReadFromTheirFields := by
  refine fun w => ⟨fun cd t v h => ?_, fun cs h => ?_, fun cd cs h => ?_, fun t h => ?_, fun n h => ?_⟩
  · obtain rfl := encode_of_decode h
    exact ⟨(cdField_commandWord ..).symm, (tagBitsField_commandWord ..).symm, (immField_commandWord ..).symm⟩
  · rcases h with h | h | h | h <;> obtain rfl := encode_of_decode h <;> exact (csField_commandWord ..).symm
  · obtain rfl := encode_of_decode h
    exact ⟨(cdField_commandWord ..).symm, (csField_commandWord ..).symm⟩
  · rcases h with h | h <;> obtain rfl := encode_of_decode h <;> exact (tagBitsField_commandWord ..).symm
  · obtain rfl := encode_of_decode h
    exact (immField_commandWord ..).symm

end Sys2Proof

namespace Sys2Proof.Machine

/-! ### The response word -/

section
variable (status : BitVec 3) (present : Bool) (len : BitVec 3) (wtag : Byte) (data : Word)

@[simp] theorem respPresent_respond : respPresent (respond status present len wtag data) = BitVec.ofBool present := by
  rw [respPresent, extract_respond_of_le _ _ _ _ _ (by decide), BitVec.extractLsb'_append_eq_of_le (by decide),
    BitVec.extractLsb'_append_eq_of_le (by decide), BitVec.extractLsb'_append_eq_of_le (by decide),
    BitVec.extractLsb'_append_eq_of_add_le (by decide)]
  simp

@[simp] theorem respBit43_respond : respBit43 (respond status present len wtag data) = 0 := by
  rw [respBit43, extract_respond_of_le _ _ _ _ _ (by decide), BitVec.extractLsb'_append_eq_of_le (by decide),
    BitVec.extractLsb'_append_eq_of_le (by decide), BitVec.extractLsb'_append_eq_of_add_le (by decide)]
  simp

@[simp] theorem respLen_respond : respLen (respond status present len wtag data) = len := by
  rw [respLen, extract_respond_of_le _ _ _ _ _ (by decide), BitVec.extractLsb'_append_eq_of_le (by decide),
    BitVec.extractLsb'_append_eq_of_add_le (by decide)]
  simp

@[simp] theorem respTag_respond : respTag (respond status present len wtag data) = wtag := by
  rw [respTag, extract_respond_of_le _ _ _ _ _ (by decide), BitVec.extractLsb'_append_eq_of_add_le (by decide)]
  simp

@[simp] theorem respData_respond : respData (respond status present len wtag data) = data :=
  (BitVec.extractLsb'_append_eq_of_add_le (xhi := status ++ BitVec.ofBool present ++ (0 : BitVec 1) ++ len ++ wtag)
    (xlo := data) (by decide)).trans (by simp)

end

/-- Settles O20: field by field. -/
theorem respondPlacesItsFields : Obligations.RespondPlacesItsFields :=
  fun _ _ _ _ _ => ⟨respStatus_respond .., respPresent_respond .., respBit43_respond .., respLen_respond ..,
    respTag_respond .., respData_respond ..⟩

/-- Rule R50's bounds on the response `r` to a command `i`. -/
def LegalResponse (i : Instr) (r : Word48) : Prop :=
  (respStatus r).toNat ≤ 4 ∧ respBit43 r = 0 ∧ (respLen r).toNat ≤ 4 ∧
    (respPresent r ≠ 0 → (∃ n, i = .dynq n) ∨ ∃ tag, i = .dync tag)

/-- A response that is not `present` is legal for every command when its status and `len` are. -/
theorem legalResponse_of_absent {i : Instr} {status len : BitVec 3} (hstatus : status.toNat ≤ 4) (hlen : len.toNat ≤ 4)
    (wtag : Byte) (data : Word) : LegalResponse i (respond status false len wtag data) := by
  refine ⟨?_, respBit43_respond .., ?_, fun hpresent => ?_⟩
  · rwa [respStatus_respond]
  · rwa [respLen_respond]
  · exact absurd (respPresent_respond ..) hpresent

/-- The answer of DYNQ and DYNC is legal for the commands that may set `present`. -/
theorem legalResponse_dynamicResponse {i : Instr} (hi : (∃ n, i = .dynq n) ∨ ∃ tag, i = .dync tag) (t : Option Tag) :
    LegalResponse i (dynamicResponse t) := by
  cases t with
  | none => exact legalResponse_of_absent (by decide) (by decide) 0 0
  | some t =>
    refine ⟨?_, respBit43_respond .., ?_, fun _ => hi⟩
    · rw [respStatus_dynamicResponse]
      decide
    · rw [dynamicResponse, respLen_respond]
      decide

theorem Cause.code_le_four (c : Cause) : c.code.toNat ≤ 4 := by cases c <;> decide

/-- A length of at most 4 stays at most 4 in the 3-bit field `len`. -/
theorem toNat_ofNat_len_le {n : Nat} (h : n ≤ 4) : (BitVec.ofNat 3 n).toNat ≤ 4 := by
  rw [BitVec.toNat_ofNat]
  omega

theorem legalResponse_fault (i : Instr) (c : Cause) : LegalResponse i (respond c.code false 0 0 0) :=
  legalResponse_of_absent c.code_le_four (by decide) 0 0

/-- An extraction command answers EMPTY_SLOT or what `f` gives. -/
theorem exists_legalResponse_of_extract {i : Instr} {cs : SlotId} {f : Container → Option Word48} {s t : State}
    (hf : ∀ {c r}, f c = some r → LegalResponse i r) (h : extract s cs f = .next t) :
    ∃ r, t.responses = s.responses ++ [r] ∧ LegalResponse i r := by
  obtain ⟨-, rfl⟩ | ⟨c, r, -, hr, rfl⟩ := extract_cases h
  · exact ⟨_, rfl, legalResponse_fault i _⟩
  · exact ⟨r, rfl, hf hr⟩

/-- Every command answers one response within rule R50's bounds. -/
theorem exists_legalResponse {i : Instr} {s t : State} (h : exec i s = .next t) :
    ∃ r, t.responses = s.responses ++ [r] ∧ LegalResponse i r := by
  have habsent {len : BitVec 3} (hlen : len.toNat ≤ 4) (wtag : Byte) (data : Word) :
      LegalResponse i (respond 0 false len wtag data) := legalResponse_of_absent (by decide) hlen wtag data
  cases i with
  | pack | clone =>
    obtain ⟨c, rfl⟩ | ⟨hdest, -⟩ | ⟨_, _, _, _, -, -, -, rfl⟩ | ⟨_, _, _, -, -, rfl⟩ := exec_cases h
    · exact ⟨_, rfl, legalResponse_fault _ c⟩
    · cases hdest
    · exact ⟨respondOk, by simp, habsent (by decide) 0 0⟩
    · exact ⟨respondOk, by simp, habsent (by decide) 0 0⟩
  | tobytes =>
    refine exists_legalResponse_of_extract (fun hr => ?_) h
    obtain ⟨bytes, hbytes, rfl⟩ := tobytesResponse_cases hr
    obtain ⟨hb, -, hlen, -⟩ := unpackBytes_spec hbytes
    exact habsent (toNat_ofNat_len_le (hlen ▸ ngroups_le_four hb)) _ _
  | tobyte =>
    refine exists_legalResponse_of_extract (fun hr => ?_) h
    obtain ⟨bytes, -, rfl⟩ := tobyteResponse_cases hr
    exact habsent (by decide) _ _
  | tou32 =>
    refine exists_legalResponse_of_extract (fun hr => ?_) h
    obtain ⟨bytes, -, rfl⟩ := tou32Response_cases hr
    exact habsent (by decide) _ _
  | rdgrp =>
    refine exists_legalResponse_of_extract (fun hr => ?_) h
    obtain ⟨hlen, rfl⟩ := rdgrpResponse_cases hr
    exact habsent (toNat_ofNat_len_le hlen) _ _
  | wbits tag =>
    cases htag : tagOk tag with
    | false =>
      obtain rfl := Host.Outcome.next.inj ((execWbits_bad htag).symm.trans h)
      exact ⟨_, rfl, legalResponse_fault _ _⟩
    | true =>
      obtain rfl := Host.Outcome.next.inj ((execWbits_ok htag).symm.trans h)
      exact ⟨_, rfl, habsent (by decide) _ _⟩
  | dynq n =>
    cases h
    exact ⟨_, rfl, legalResponse_dynamicResponse (.inl ⟨n, rfl⟩) _⟩
  | dync tag =>
    cases htag : tagOk tag with
    | false =>
      obtain rfl := Host.Outcome.next.inj ((execDync_bad htag).symm.trans h)
      exact ⟨_, rfl, legalResponse_fault _ _⟩
    | true =>
      obtain rfl := Host.Outcome.next.inj ((execDync_ok htag).symm.trans h)
      exact ⟨_, rfl, legalResponse_dynamicResponse (.inr ⟨tag, rfl⟩) _⟩

/-- Settles O21: faults, zero answers, extractions and the width commands answer within the bounds. -/
theorem everyResponseIsWellFormed : Obligations.EveryResponseIsWellFormed := fun _ _ _ => exists_legalResponse

/-! ### Commands as text: the operands -/

/-- The line of a mnemonic and operands, spaced as `writeLine` does it. -/
def lineOf (o : Op) (ops : List (List Char)) : List Char := mnemonic o ++ ' ' :: joinOperands ops

/-- The operands of a command as `writeLine` writes them. -/
def operandTexts : Instr → List (List Char)
  | .pack cd t v => [slotName cd, writeTag t, writeWord v]
  | .tobytes cs | .tobyte cs | .tou32 cs | .rdgrp cs => [slotName cs]
  | .clone cd cs => [slotName cd, slotName cs]
  | .wbits t | .dync t => [writeTag t]
  | .dynq n => [writeWord n]

theorem writeLine_eq (i : Instr) : writeLine i = lineOf i.op (operandTexts i) := by
  cases i <;> simp [writeLine, lineOf, Instr.op, operandTexts]

theorem readCommand_operandTexts (i : Instr) : readCommand i.op (operandTexts i) = some i := by
  cases i <;> simp [readCommand, Instr.op, operandTexts, readSlot_slotName, readTag_writeTag, readWord_writeWord]

/-- Operands as they stand in a line: at least one, and each of them some text without a space, comma or semicolon. -/
def Operands (ops : List (List Char)) : Prop := ops ≠ [] ∧ ∀ a ∈ ops, a ≠ [] ∧ OneOperand a

theorem operands_operandTexts (i : Instr) : Operands (operandTexts i) := by
  have hslot (j : SlotId) : slotName j ≠ [] ∧ OneOperand (slotName j) := ⟨by cases j <;> decide, oneOperand_slotName j⟩
  have htag (t : Tag) : writeTag t ≠ [] ∧ OneOperand (writeTag t) := ⟨by simp [writeTag], oneOperand_writeTag t⟩
  have hword (v : Word) : writeWord v ≠ [] ∧ OneOperand (writeWord v) := ⟨by simp [writeWord], oneOperand_writeWord v⟩
  cases i <;> simp [Operands, operandTexts, hslot, htag, hword]

theorem Operands.tail {a b : List Char} {ops : List (List Char)} (h : Operands (a :: b :: ops)) : Operands (b :: ops) :=
  ⟨List.cons_ne_nil _ _, fun x hx => h.2 x (List.mem_cons_of_mem _ hx)⟩

theorem Operands.head {a : List Char} {ops : List (List Char)} (h : Operands (a :: ops)) : a ≠ [] ∧ OneOperand a :=
  h.2 a List.mem_cons_self

/-- The last character of a text is there and is no space. -/
def EndsWithoutSpace (cs : List Char) : Prop := ∃ c, cs.getLast? = some c ∧ c ≠ ' '

theorem EndsWithoutSpace.append {cs : List Char} (h : EndsWithoutSpace cs) (front : List Char) :
    EndsWithoutSpace (front ++ cs) := by
  obtain ⟨c, hc, hne⟩ := h
  exact ⟨c, by rw [List.getLast?_append, hc, Option.some_or], hne⟩

theorem endsWithoutSpace_joinOperands {ops : List (List Char)} (h : Operands ops) : EndsWithoutSpace (joinOperands ops) := by
  induction ops with
  | nil => exact absurd rfl h.1
  | cons a ops ih =>
    cases ops with
    | nil =>
      obtain ⟨hne, hone⟩ := h.head
      exact ⟨a.getLast hne, List.getLast?_eq_some_getLast hne, (hone _ (List.getLast_mem hne)).1⟩
    | cons b ops => exact (ih h.tail).append _

theorem ne_semicolon_of_mem_joinOperands {ops : List (List Char)} (h : Operands ops) : ∀ c ∈ joinOperands ops, c ≠ ';' := by
  induction ops with
  | nil => exact absurd rfl h.1
  | cons a ops ih =>
    have ha : ∀ c ∈ a, c ≠ ';' := fun c hc => (h.head.2 c hc).2.2
    cases ops with
    | nil => exact ha
    | cons b ops =>
      have hsep : ∀ c ∈ [',', ' '], c ≠ ';' := by simp
      simp only [joinOperands, List.forall_mem_append]
      exact ⟨⟨ha, hsep⟩, ih h.tail⟩

/-- Cutting the joined operands at the commas leaves each operand after its space. -/
theorem cutAtCommas_joinOperands {ops : List (List Char)} (h : Operands ops) :
    cutAtCommas (' ' :: joinOperands ops) = ops.map (' ' :: ·) := by
  induction ops with
  | nil => exact absurd rfl h.1
  | cons a ops ih =>
    obtain ⟨-, ha⟩ := h.head
    cases ops with
    | nil => simp [joinOperands, cutAtCommas, cutAtCommas_of_oneOperand ha]
    | cons b ops =>
      have hline : joinOperands (a :: b :: ops) = a ++ ',' :: ' ' :: joinOperands (b :: ops) := by simp [joinOperands]
      have hcut : cutAtCommas (a ++ ',' :: ' ' :: joinOperands (b :: ops)) = a :: (b :: ops).map (' ' :: ·) := by
        rw [cutAtCommas_append ha, ih h.tail]
      simp [hline, cutAtCommas, hcut]

theorem map_trim_cutAtCommas {ops : List (List Char)} (h : Operands ops) :
    (cutAtCommas (' ' :: joinOperands ops)).map trim = ops := by
  have htrim : ∀ a ∈ ops, (trim ∘ (' ' :: ·)) a = id a := fun a ha => (trim_of_oneOperand (h.2 a ha).2).2
  rw [cutAtCommas_joinOperands h, List.map_map, List.map_congr_left htrim, List.map_id]

/-! ### Commands as text: the line -/

theorem oneOperand_mnemonic (o : Op) : OneOperand (mnemonic o) := by
  cases o <;> simp [OneOperand, mnemonic]

theorem find_mnemonic (o : Op) :
    [Op.pack, .tobytes, .tobyte, .tou32, .rdgrp, .clone, .wbits, .dynq, .dync].find? (fun o' => mnemonic o' = mnemonic o) =
      some o := by
  cases o <;> decide

theorem trim_eq_rdropWhile (cs : List Char) : trim cs = (cs.dropWhile (· = ' ')).rdropWhile (· = ' ') := rfl

theorem trim_append_space (cs : List Char) : trim (cs ++ [' ']) = trim cs := by
  rw [trim_eq_rdropWhile, trim_eq_rdropWhile, List.dropWhile_append]
  split
  next hnil =>
    rw [List.isEmpty_iff.1 hnil]
    rfl
  next => exact List.rdropWhile_concat_pos _ _ _ (by simp)

/-- Text that neither begins nor ends with a space is not trimmed. -/
theorem trim_eq_self {c : Char} {cs : List Char} (hc : c ≠ ' ') (h : EndsWithoutSpace (c :: cs)) :
    trim (c :: cs) = c :: cs := by
  obtain ⟨d, hd, hne⟩ := h
  rw [trim_eq_rdropWhile, List.dropWhile_cons_of_neg (by simpa using hc), List.rdropWhile_eq_self_iff]
  intro hl
  rw [List.getLast_of_getLast?_eq_some hd]
  simpa using hne

/-- A comment and the space before it are not read. -/
theorem readLine_comment {line : List Char} (h : ∀ c ∈ line, c ≠ ';') (comment : List Char) :
    readLine (line ++ ' ' :: ';' :: comment) = readLine line := by
  have hline : (line ++ ' ' :: ';' :: comment).takeWhile (· ≠ ';') = line ++ [' '] := by
    rw [List.takeWhile_append_of_pos (by simpa using h)]
    simp
  have hself : line.takeWhile (· ≠ ';') = line := by
    rw [List.takeWhile_eq_self_iff]
    simpa using h
  simp only [readLine, hline, hself, trim_append_space]

theorem ne_semicolon_of_mem_lineOf {ops : List (List Char)} (h : Operands ops) (o : Op) : ∀ c ∈ lineOf o ops, c ≠ ';' := by
  have hmnemonic : ∀ c ∈ mnemonic o, c ≠ ';' := fun c hc => (oneOperand_mnemonic o c hc).2.2
  rw [lineOf, List.forall_mem_append, List.forall_mem_cons]
  exact ⟨hmnemonic, by decide, ne_semicolon_of_mem_joinOperands h⟩

theorem trim_lineOf {ops : List (List Char)} (h : Operands ops) (o : Op) : trim (lineOf o ops) = lineOf o ops := by
  have hend : EndsWithoutSpace (lineOf o ops) := by
    rw [lineOf, List.append_cons]
    exact (endsWithoutSpace_joinOperands h).append _
  cases o <;> exact trim_eq_self (by decide) hend

/-- A written line is read by taking its mnemonic, its operands, and the command they make. -/
theorem readLine_lineOf {o : Op} {ops : List (List Char)} {i : Instr} (h : Operands ops) (hi : readCommand o ops = some i) :
    readLine (lineOf o ops) = .command i := by
  have hline : (lineOf o ops).takeWhile (· ≠ ';') = lineOf o ops := by
    rw [List.takeWhile_eq_self_iff]
    simpa using ne_semicolon_of_mem_lineOf h o
  have hspace : ∀ c ∈ mnemonic o, decide (c ≠ ' ') = true := fun c hc => decide_eq_true (oneOperand_mnemonic o c hc).1
  have hword : (lineOf o ops).takeWhile (· ≠ ' ') = mnemonic o := by
    rw [lineOf, List.takeWhile_append_of_pos hspace]
    simp
  have hrest : (lineOf o ops).dropWhile (· ≠ ' ') = ' ' :: joinOperands ops := by
    rw [lineOf, List.dropWhile_append_of_pos hspace]
    simp
  have hne : lineOf o ops ≠ [] := by simp [lineOf]
  simp only [readLine, hline, trim_lineOf h, hword, hrest, map_trim_cutAtCommas h, find_mnemonic, hne, if_false,
    Option.bind_some, hi]

theorem readLine_writeLine (i : Instr) : readLine (writeLine i) = .command i := by
  rw [writeLine_eq]
  exact readLine_lineOf (operands_operandTexts i) (readCommand_operandTexts i)

theorem assemble_writeLine (program : List Instr) : assemble (program.map writeLine) = some (program.map encode) := by
  induction program with
  | nil => rfl
  | cons i program ih => simp [assemble, readLine_writeLine, ih]

/-- Settles O19: a written line is taken apart into its mnemonic and operands, and a comment is cut off before that. -/
theorem assemblyReadsBack : Obligations.AssemblyReadsBack := by
  refine ⟨readLine_writeLine, assemble_writeLine, fun i comment => ⟨?_, ?_⟩⟩
  · have hsemicolon : ∀ c ∈ writeLine i, c ≠ ';' := by
      rw [writeLine_eq]
      exact ne_semicolon_of_mem_lineOf (operands_operandTexts i) i.op
    rw [readLine_comment hsemicolon, readLine_writeLine]
  · have hblank : readLine [] = .blank := rfl
    rw [← hblank]
    exact readLine_comment (line := []) (by simp) comment

end Sys2Proof.Machine
end

/-! # Proofs of the statements about width tags (rules R65 to R74)

A tag's code is its class number above its quantity, so the ranges of good tags are read off class by class. The three width
commands are a row of the opcode map each, and an answer that the tag's `tagOk` and `bits` determine. A static and a dynamic
marker of one count agree in both, so they pack to containers that differ in the tag alone, and only RDGRP answers the tag. -/

section
namespace Sys2Proof

/-- Both outcomes of a word with a defined opcode, by any condition `P` that says its unused fields are zero (rule R48). -/
theorem decode_by_unused {w : Word48} {o : Op} {P : Prop} (hcode : opField w = o.code) (hP : P ↔ o.UnusedZero w) :
    (P → decode w = .command (readOperands o w)) ∧ (¬P → decode w = .illegal (.unusedFieldSet o)) :=
  ⟨fun h => decode_of_unusedZero hcode (hP.1 h), fun h => decode_of_unused_set hcode (mt hP.2 h)⟩

/-- The fields that WBITS and DYNC do not use are `CW[43:40]` and `CW[31:0]` (rule R46). -/
theorem cd_cs_imm_zero_iff (w : Word48) :
    (w.extractLsb' 40 4 = 0 ∧ w.extractLsb' 0 32 = 0) ↔ cdField w = 0 ∧ csField w = 0 ∧ immField w = 0 := by
  rw [cd_cs_zero_iff, and_assoc, immField]

end Sys2Proof

namespace Sys2Proof.Machine

/-! ### Which tags name a width -/

theorem tagOk_marker_iff (q : BitVec 6) : tagOk ⟨.marker, q⟩ = true ↔ 1 ≤ q.toNat ∧ q.toNat ≤ 24 :=
  decide_eq_true_iff

theorem tagOk_dynamic_iff (q : BitVec 6) : tagOk ⟨.dynamic, q⟩ = true ↔ 1 ≤ q.toNat ∧ q.toNat ≤ 24 :=
  decide_eq_true_iff

theorem tagOk_native_iff (q : BitVec 6) : tagOk ⟨.native, q⟩ = true ↔ q.toNat ∈ [8, 16, 32] := decide_eq_true_iff

theorem tagOk_raw (q : BitVec 6) : tagOk ⟨.raw, q⟩ = true := rfl

/-- Settles O22: class by class, the code is 64 times the class number plus the quantity, which is below 64. -/
theorem tagIsOkExactlyInItsClassRange : Obligations.TagIsOkExactlyInItsClassRange := by
  rintro ⟨cls, q⟩
  have hq := q.isLt
  rw [Tag.toNat_toBits]
  cases cls with
  | marker =>
    have hcls : WidthClass.marker.toBits.toNat = 0 := rfl
    simp only [tagOk_marker_iff, hcls, List.mem_cons, List.not_mem_nil, or_false]
    omega
  | dynamic =>
    have hcls : WidthClass.dynamic.toBits.toNat = 1 := rfl
    simp only [tagOk_dynamic_iff, hcls, List.mem_cons, List.not_mem_nil, or_false]
    omega
  | native =>
    have hcls : WidthClass.native.toBits.toNat = 2 := rfl
    simp only [tagOk_native_iff, hcls, List.mem_cons, List.not_mem_nil, or_false]
    omega
  | raw =>
    have hcls : WidthClass.raw.toBits.toNat = 3 := rfl
    simp only [tagOk_raw, hcls, List.mem_cons, List.not_mem_nil, or_false, true_iff]
    omega

/-! ### The answers of the width commands -/

/-- A response with nothing in it but `data` is `data` as a number. -/
theorem respond_data (data : Word) : respond 0 false 0 0 data = data.setWidth 48 :=
  (BitVec.setWidth_eq_append (w := 48) (x := data) (by decide)).symm

/-- The dynamic width of a number, which holds the number in its quantity field (rule R68). -/
theorem fromQuantity_present {n : Nat} {q : BitVec 6} (hq : BitVec.ofNat 6 n = q) (h : 1 ≤ n ∧ n ≤ 24) :
    fromQuantity n = some ⟨.dynamic, q⟩ := by rw [fromQuantity, if_pos h, hq]

theorem fromQuantity_absent {n : Nat} (h : ¬(1 ≤ n ∧ n ≤ 24)) : fromQuantity n = none := if_neg h

/-- Settles O23: the row of WBITS, and its answer, whose fields but `data` are zero. -/
theorem wbitsAnswersTheBitCount : Obligations.WbitsAnswersTheBitCount := by
  refine ⟨fun w hcode => decode_by_unused (o := .wbits) hcode (cd_cs_imm_zero_iff w),
    fun t s => ⟨fun hok => ?_, execWbits_bad⟩⟩
  have hanswer : respond 0 false 0 0 (BitVec.ofNat 32 (bits t)) = t.q.setWidth 48 := by
    rw [respond_data, bits, BitVec.ofNat_toNat, BitVec.setWidth_setWidth (by decide)]
  rw [← hanswer]
  exact execWbits_ok hok

/-- Settles O24: the row of DYNQ, and the answer for a number inside and outside 1 to 24. -/
theorem dynqAnswersTheDynamicWidth : Obligations.DynqAnswersTheDynamicWidth := by
  refine ⟨fun w hcode => decode_by_unused (o := .dynq) hcode (cd_cs_tag_zero_iff w),
    fun n s => ⟨fun hn => ?_, fun hn => ?_⟩⟩
  · have hpresent : fromQuantity n.toNat = some ⟨.dynamic, n.extractLsb' 0 6⟩ := fromQuantity_present rfl hn
    exact ⟨hpresent, by rw [exec, execDynq, hpresent]; rfl⟩
  · have habsent := fromQuantity_absent hn
    exact ⟨habsent, by rw [exec, execDynq, habsent]; rfl⟩

/-- Settles O25: the row of DYNC, and the answer for a good tag of a count inside and outside 1 to 24, and for a bad tag. -/
theorem dyncAnswersTheDynamicWidthOfATag : Obligations.DyncAnswersTheDynamicWidthOfATag := by
  refine ⟨fun w hcode => decode_by_unused (o := .dync) hcode (cd_cs_imm_zero_iff w),
    fun t s => ⟨fun hok hn => (execDync_ok hok).trans ?_, fun hok hn => (execDync_ok hok).trans ?_, execDync_bad⟩⟩
  · have hpresent : fromCapability t = some ⟨.dynamic, t.q⟩ := fromQuantity_present (by simp [bits]) hn
    rw [hpresent]
    rfl
  · have habsent : fromCapability t = none := fromQuantity_absent hn
    rw [habsent]
    rfl

/-! ### Static and dynamic widths -/

/-- With two tags of one count, both good or both bad, PACK raises the same fault or writes the same groups. -/
theorem execPack_alike {t t' : Tag} (hok : tagOk t = tagOk t') (hbits : bits t = bits t') (cd : SlotId) (v : Word)
    (s : State) :
    (∃ c, execPack cd t v s = .next (s.raise c) ∧ execPack cd t' v s = .next (s.raise c)) ∨
    ∃ g, execPack cd t v s = .next ((s.setSlot cd ⟨t, g⟩).answer respondOk) ∧
      execPack cd t' v s = .next ((s.setSlot cd ⟨t', g⟩).answer respondOk) := by
  cases ht : tagOk t with
  | false => exact .inl ⟨.badTag, execPack_bad ht, execPack_bad (hok ▸ ht)⟩
  | true =>
    cases hg : pack v (bits t) with
    | none => exact .inl ⟨.widthOverflow, by simp [execPack, ht, hg], by simp [execPack, ← hok, ht, ← hbits, hg]⟩
    | some g => exact .inr ⟨g, execPack_ok ht hg, execPack_ok (hok ▸ ht) (hbits ▸ hg)⟩

/-- Two containers that differ in the class of the tag at most. -/
structure Container.Alike (c c' : Container) : Prop where
  groups : c.g = c'.g
  count : bits c.wt = bits c'.wt

theorem Container.Alike.refl (c : Container) : c.Alike c := ⟨rfl, rfl⟩

/-- Extraction answers the same from two containers on which its answer is the same. -/
theorem responses_extract {s s' t t' : State} {cs : SlotId} {f : Container → Option Word48} {c c' : Container}
    (hresp : s.responses = s'.responses) (hc : s.slot cs = some c) (hc' : s'.slot cs = some c') (hf : f c = f c')
    (h : extract s cs f = .next t) (h' : extract s' cs f = .next t') : t.responses = t'.responses := by
  obtain ⟨hn, -⟩ | ⟨_, r, hd, hr, rfl⟩ := extract_cases h
  · simp [hc] at hn
  · obtain rfl := Option.some.inj (hc.symm.trans hd)
    obtain rfl := Host.Outcome.next.inj ((extract_some hc' (hf ▸ hr)).symm.trans h')
    simp [hresp]

/-- Every command but RDGRP answers the same on a source slot that is empty in both states or holds alike containers. -/
theorem responses_exec_of_alike {s s' t t' : State} {i : Instr} {cs : SlotId} (hi : i.source = some cs)
    (hrdgrp : ∀ j, i ≠ .rdgrp j) (hslot : Option.Rel Container.Alike (s.slot cs) (s'.slot cs))
    (hresp : s.responses = s'.responses) (h : exec i s = .next t) (h' : exec i s' = .next t') :
    t.responses = t'.responses := by
  generalize hc : s.slot cs = o at hslot
  generalize hc' : s'.slot cs = o' at hslot
  cases hslot with
  | none =>
    obtain rfl := Host.Outcome.next.inj ((exec_source_empty hi hc).symm.trans h)
    obtain rfl := Host.Outcome.next.inj ((exec_source_empty hi hc').symm.trans h')
    simp [hresp]
  | some halike =>
    obtain ⟨hg, hb⟩ := halike
    cases i with
    | pack | wbits | dynq | dync => cases hi
    | rdgrp j => exact absurd rfl (hrdgrp j)
    | tobytes =>
      cases hi
      exact responses_extract hresp hc hc' (by simp only [tobytesResponse, hg, hb]) h h'
    | tobyte =>
      cases hi
      exact responses_extract hresp hc hc' (by simp only [tobyteResponse, hg, hb]) h h'
    | tou32 =>
      cases hi
      exact responses_extract hresp hc hc' (by simp only [tou32Response, hg, hb]) h h'
    | clone =>
      cases hi
      obtain rfl := Host.Outcome.next.inj ((execClone_some hc).symm.trans h)
      obtain rfl := Host.Outcome.next.inj ((execClone_some hc').symm.trans h')
      simp [hresp]

/-- A slot after alike containers have been written to one slot of a state. -/
theorem State.alike_slot_setSlot (s : State) (cd cs : SlotId) {c c' : Container} (h : c.Alike c') :
    Option.Rel Container.Alike ((s.setSlot cd c).slot cs) ((s.setSlot cd c').slot cs) := by
  rw [State.slot_setSlot, State.slot_setSlot]
  split
  · exact .some h
  · cases s.slot cs with
    | none => exact .none
    | some d => exact .some (.refl d)

/-- Settles O26: the two tags agree in `tagOk` and `bits`, which WBITS and DYNC only read; PACK raises the same fault, or writes
alike containers, on which the commands answer the same. -/
theorem staticAndDynamicWidthsBehaveAlike : Obligations.StaticAndDynamicWidthsBehaveAlike := by
  refine fun q s => ⟨rfl, rfl, fun cd v => ?_⟩
  obtain ⟨c, ht, hu⟩ | ⟨g, ht, hu⟩ := execPack_alike (t := ⟨.marker, q⟩) (t' := ⟨.dynamic, q⟩) rfl rfl cd v s
  · refine ⟨_, _, ht, hu, rfl, rfl, fun _ _ => rfl, fun _ i cs _ _ t' u' h h' => ?_⟩
    exact congrArg State.responses (Host.Outcome.next.inj (h.symm.trans h'))
  · refine ⟨_, _, ht, hu, by simp, by simp, fun j hj => ?_, fun _ i cs hi hrdgrp t' u' h h' => ?_⟩
    · simp [State.slot_setSlot, hj]
    · refine responses_exec_of_alike hi hrdgrp ?_ (by simp) h h'
      rw [State.slot_answer, State.slot_answer]
      exact s.alike_slot_setSlot cd cs ⟨rfl, rfl⟩

end Sys2Proof.Machine
end

/-! # Proofs of the statements about construction (rules R83 to R91)

A byte of a value shifted up by `8 - r` is the value's `r` bits over zero bits, and dividing and reducing a number reads only the
bits below its width: so packing is a closed form that drops the bits at the width and above. PACK and CLONE each write one
container and answer zero, or raise a fault; what that leaves unchanged is said once, for the write. -/

section
namespace Sys2Proof.Machine

/-! ### The closed form of pack -/

/-- Reducing a number mod `2^b` keeps the `r` bits from bit `k` on, when they lie below bit `b`. -/
theorem mod_two_pow_div_mod (n : Nat) {b k r : Nat} (h : k + r ≤ b) :
    n % 2 ^ b / 2 ^ k % 2 ^ r = n / 2 ^ k % 2 ^ r := by
  obtain ⟨d, rfl⟩ := Nat.exists_eq_add_of_le h
  rw [Nat.add_assoc, Nat.pow_add, Nat.mod_mul_right_div_self, Nat.mod_mod_of_dvd _ (Nat.pow_dvd_pow 2 (Nat.le_add_right r d))]

/-- Byte `x` shifted up by `8 - r` holds the low `r` bits of `x` over zero bits. -/
theorem toNat_shl8 (x : Byte) {r : Nat} (hr : r ≤ 8) : (shl8 x (8 - r)).toNat = x.toNat % 2 ^ r * 2 ^ (8 - r) := by
  have hsplit : 2 ^ 8 = 2 ^ r * 2 ^ (8 - r) := by rw [← Nat.pow_add, Nat.add_sub_cancel' hr]
  rw [shl8, BitVec.toNat_shiftLeft, Nat.shiftLeft_eq, hsplit, Nat.mul_mod_mul_right]

/-- The partial group is the value's `r` bits from bit `k` on, over zero bits (rule R84). -/
theorem toNat_shl8_extract (v : Word) (k : Nat) {r : Nat} (hr : r ≤ 8) :
    (shl8 (v.extractLsb' k 8) (8 - r)).toNat = v.toNat / 2 ^ k % 2 ^ r * 2 ^ (8 - r) := by
  rw [toNat_shl8 _ hr, BitVec.extractLsb'_toNat, Nat.shiftRight_eq_div_pow, Nat.mod_mod_of_dvd _ (Nat.pow_dvd_pow 2 hr)]

/-- The value of the low `b` bits of `v`, `v mod 2^b`. -/
theorem toNat_ofNat_mod_two_pow (v : Word) (b : Nat) :
    (BitVec.ofNat 32 (v.toNat % 2 ^ b)).toNat = v.toNat % 2 ^ b := by
  rw [BitVec.toNat_ofNat, Nat.mod_eq_of_lt ((Nat.mod_le _ _).trans_lt v.isLt)]

/-- Bits of the value numbered `b` and above appear nowhere in the groups (rule R84). -/
theorem pack_mod_two_pow {v : Word} {b : Nat} {g : List Byte} (h : pack v b = some g) :
    pack (BitVec.ofNat 32 (v.toNat % 2 ^ b)) b = some g := by
  obtain ⟨hb, hlen, hfull, hlast⟩ := pack_spec h
  obtain ⟨g', hpack⟩ := pack_isSome_iff (v := BitVec.ofNat 32 (v.toNat % 2 ^ b)).2 hb
  obtain ⟨-, hlen', hfull', hlast'⟩ := pack_spec hpack
  obtain ⟨hsum, hrem⟩ := full_rem b
  suffices g' = g by rw [hpack, this]
  refine groups_ext hlen' hlen (fun k hk => ?_) fun hr => ?_
  · rw [hfull' k hk, hfull k hk]
    congr 1
    apply BitVec.eq_of_toNat_eq
    rw [BitVec.extractLsb'_toNat, BitVec.extractLsb'_toNat, toNat_ofNat_mod_two_pow, Nat.shiftRight_eq_div_pow,
      Nat.shiftRight_eq_div_pow, mod_two_pow_div_mod _ (by omega)]
  · rw [hlast' hr, hlast hr]
    congr 1
    apply BitVec.eq_of_toNat_eq
    rw [toNat_shl8_extract _ _ hrem.le, toNat_shl8_extract _ _ hrem.le, toNat_ofNat_mod_two_pow,
      mod_two_pow_div_mod _ hsum.ge]

/-- Settles O30: the groups element by element, the partial one as a number, and the value mod `2^b` in their place. -/
theorem packClosedForm : Obligations.PackClosedForm := by
  intro v b hb
  obtain ⟨g, hg⟩ := pack_isSome_iff (v := v).2 hb
  obtain ⟨-, hlen, hfull, hlast⟩ := pack_spec hg
  exact ⟨g, hg, hlen, hfull, fun hr => ⟨_, hlast hr, toNat_shl8_extract v _ (full_rem b).2.le⟩, pack_mod_two_pow hg⟩

/-- What `pack` answers is the groups of rule R83. -/
theorem groupView_of_pack {v : Word} {b : Nat} {g : List Byte} (h : pack v b = some g) : GroupView v b g := by
  obtain ⟨-, hlen, hfull, hlast⟩ := pack_spec h
  exact ⟨hlen.trans (ngroups_eq_ceil b), hfull, hlast⟩

/-! ### Writing a container -/

/-- Everything that PACK and CLONE do when they do not fault (rules R15, R85, R91): one slot is written and zero answered. -/
theorem write_frame {s u : State} {cd : SlotId} {c : Container} (hu : u = (s.setSlot cd c).answer respondOk) :
    u.slot cd = some c ∧ (∀ j, j ≠ cd → u.slot j = s.slot j) ∧ u.fseen = s.fseen ∧ u.commands = s.commands ∧
      u.responses = s.responses ++ [0x000000000000] := by
  have hok : respondOk = 0x000000000000 := by decide
  subst hu
  refine ⟨by simp, fun j hj => ?_, by simp, by simp, by simp [hok]⟩
  rw [State.slot_answer, State.slot_setSlot_ne _ _ hj]

/-- Settles O27: the row of PACK, its two faults, and the write of the groups `pack` answers. -/
theorem packBuildsTheContainer : Obligations.PackBuildsTheContainer := by
  refine ⟨fun w hcode => decode_by_unused (o := .pack) hcode Iff.rfl,
    fun cd t v s => ⟨execPack_bad, execPack_overflow, fun hok hb => ?_⟩⟩
  obtain ⟨g, hg⟩ := pack_isSome_iff (v := v).2 hb
  exact ⟨g, _, groupView_of_pack hg, execPack_ok hok hg, write_frame rfl⟩

/-- Settles O28: the row of CLONE, its fault, and the write of the source's container, which the source holds also when it is the
destination. -/
theorem cloneCopiesTheContainer : Obligations.CloneCopiesTheContainer := by
  refine ⟨fun w hcode => decode_by_unused (o := .clone) hcode (tag_imm_zero_iff w),
    fun cd cs s => ⟨execClone_empty, fun c hc => ?_⟩⟩
  obtain ⟨hcd, hframe⟩ := write_frame (s := s) (cd := cd) (c := c) rfl
  refine ⟨_, execClone_some hc, hcd, ?_, hframe⟩
  rw [← hc]
  exact slot_source_of_exec (i := .clone cd cs) rfl (execClone_some hc)

/-- Settles O29: `pack` is given the count and not the tag. -/
theorem groupsDependOnTheBitCountOnly : Obligations.GroupsDependOnTheBitCountOnly := by
  intro cd t₁ t₂ v s hok₁ hok₂ hbits hb
  obtain ⟨g, hg⟩ := pack_isSome_iff (v := v).2 hb
  exact ⟨g, _, _, execPack_ok hok₁ hg, execPack_ok hok₂ (hbits ▸ hg), by simp, by simp, by simp⟩

/-- Settles O31: the value and its low bits pack to the same groups, which are written. -/
theorem packTruncatesSilently : Obligations.PackTruncatesSilently := by
  intro cd t v s hok hb
  obtain ⟨g, hg⟩ := pack_isSome_iff (v := v).2 hb
  obtain ⟨-, -, hfseen, -, hresponses⟩ := write_frame (s := s) (cd := cd) (c := ⟨t, g⟩) rfl
  exact ⟨_, execPack_ok hok hg, hfseen, hresponses, execPack_ok hok (pack_mod_two_pow hg)⟩

/-! ### Counts that only a raw tag has -/

/-- A good tag whose count is neither one of 1 to 24 nor 32 is raw (rule R67). -/
theorem cls_eq_raw_of_count {t : Tag} (hok : tagOk t = true) (hmarker : ¬(1 ≤ bits t ∧ bits t ≤ 24))
    (h32 : bits t ≠ 32) : t.cls = .raw := by
  obtain ⟨cls, q⟩ := t
  cases cls with
  | marker => exact absurd ((tagOk_marker_iff q).1 hok) hmarker
  | dynamic => exact absurd ((tagOk_dynamic_iff q).1 hok) hmarker
  | native =>
    have hq := (tagOk_native_iff q).1 hok
    simp only [List.mem_cons, List.not_mem_nil, or_false] at hq
    simp only [bits] at hmarker h32
    omega
  | raw => rfl

theorem tagOk_of_cls_eq_raw {t : Tag} (h : t.cls = .raw) : tagOk t = true := by
  obtain ⟨cls, q⟩ := t
  obtain rfl : cls = .raw := h
  exact tagOk_raw q

/-- An effect leaves the same slots in states with the same slots. -/
theorem Effect.slot_apply_congr (e : Effect) {s s' : State} (h : ∀ j, s.slot j = s'.slot j) (j : SlotId) :
    (e.apply s).slot j = (e.apply s').slot j := by
  cases e with
  | fault c => simp [apply, h]
  | reply r _ => simp [apply, h]
  | write cd c => simp [apply, State.slot_setSlot, h]

/-- Settles O32: `pack` has no answer, which is a fault; and the next command has its effect on slots that are as before. -/
theorem widthAbove32HasNoGroups : Obligations.WidthAbove32HasNoGroups := by
  refine ⟨fun _ _ => pack_of_lt, fun t hok hb => ⟨cls_eq_raw_of_count hok (by omega) (by omega), fun cd v s next => ?_⟩⟩
  refine ⟨_, execPack_overflow hok hb, rfl, s.slot_raise _, s.commands_raise _, fun z hz => ?_⟩
  obtain ⟨e, he⟩ := exists_hasEffect hz
  obtain rfl := he.eq_apply hz
  exact ⟨_, he.2 _ fun cs _ => (s.slot_raise _ cs).symm, e.slot_apply_congr (s.slot_raise _)⟩

/-- At the widths 25 to 31 three groups are whole bytes and the fourth is shifted up by `32 - b`, which is `8 - rem` (rule R90). -/
theorem pack_four_groups (v : Word) {b : Nat} (h25 : 25 ≤ b) (h31 : b ≤ 31) :
    pack v b = some [v.extractLsb' 0 8, v.extractLsb' 8 8, v.extractLsb' 16 8, v.extractLsb' 24 8 <<< (32 - b)] := by
  obtain ⟨g, hg⟩ := pack_isSome_iff (v := v).2 (show b ≤ 32 by omega)
  obtain ⟨-, hlen, hwhole, hlast⟩ := pack_spec hg
  obtain ⟨hsum, hrem⟩ := full_rem b
  have hfull : full b = 3 := by omega
  have hr : rem b ≠ 0 := by omega
  have hshift : 8 - rem b = 32 - b := by omega
  rw [hg, Option.some.injEq]
  refine groups_ext hlen (by simp [ngroups, hfull, hr]) (fun k hk => ?_) fun _ => ?_
  · rw [hwhole k hk]
    match k, hfull ▸ hk with
    | 0, _ | 1, _ | 2, _ => rfl
  · rw [hlast hr, hshift, hfull]
    rfl

/-- Settles O34: no marker and no native type has such a count, a raw tag always names a width, and its four groups are written. -/
theorem rawWidths25To31BuildFourGroups : Obligations.RawWidths25To31BuildFourGroups := by
  intro t h25 h31
  refine ⟨⟨fun hok => cls_eq_raw_of_count hok (by omega) (by omega), tagOk_of_cls_eq_raw⟩, fun cd v s hraw => ?_⟩
  exact ⟨_, execPack_ok (tagOk_of_cls_eq_raw hraw) (pack_four_groups v h25 h31), by simp, by simp⟩

/-! ### Width zero -/

theorem pack_zero (v : Word) : pack v 0 = some [] := rfl

theorem eq_raw_zero_of_bits_eq_zero {t : Tag} (hok : tagOk t = true) (hb : bits t = 0) : t = ⟨.raw, 0⟩ := by
  have hcls := cls_eq_raw_of_count hok (by omega) (by omega)
  have hq : t.q = 0 := BitVec.eq_of_toNat_eq hb
  rw [← hcls, ← hq]

/-- Settles O33: no group is written, and TOBYTE finds the slot valid and answers 0 for the first byte of none (rule R96). -/
theorem widthZeroMakesAValidEmptyContainer : Obligations.WidthZeroMakesAValidEmptyContainer := by
  refine ⟨pack_zero, fun _ => eq_raw_zero_of_bits_eq_zero, fun cd v s => ?_⟩
  obtain ⟨hslot, -, hfseen, -⟩ := write_frame (s := s) (cd := cd) (c := ⟨⟨.raw, 0⟩, []⟩) rfl
  exact ⟨_, execPack_ok (tagOk_raw 0) (pack_zero v), hslot, hfseen, extract_some hslot (tobyteResponse_eq (bytes := []) rfl)⟩

end Sys2Proof.Machine
end

/-! # Proofs of the statements about extraction (rules R95 to R109)

Each extraction command is a row of the opcode map, an EMPTY_SLOT fault, and the answer from the container's byte view. After
construction byte `k` of the view is digit `k` of `v mod 2^b`, in the partial byte too, because shifting up and down again keeps
the low bits; so the view spells `v mod 2^b` (`leNat_unpackBytes_of_pack`), and the answers after PACK are read off from that. -/

section
namespace Sys2Proof

/-- The fields that the extraction commands do not use are `CW[43:42]` and `CW[39:0]` (rule R46). -/
theorem cd_tag_imm_zero_iff (w : Word48) :
    (w.extractLsb' 42 2 = 0 ∧ w.extractLsb' 0 40 = 0) ↔ cdField w = 0 ∧ tagBitsField w = 0 ∧ immField w = 0 := by
  rw [tag_imm_zero_iff, cdField]

end Sys2Proof

namespace Sys2Proof.Machine

/-! ### The byte view and its value -/

/-- What `unpack_bytes` answers is the bytes of rule R95. -/
theorem byteView_of_unpackBytes {g bytes : List Byte} {b : Nat} (h : unpackBytes g b = some bytes) : ByteView g b bytes := by
  obtain ⟨-, -, hlen, hfull, hlast⟩ := unpackBytes_spec h
  refine ⟨hlen.trans (ngroups_eq_ceil b), hfull, fun hr => ?_⟩
  obtain ⟨x, hx, hbyte⟩ := hlast hr
  exact hbyte.trans (congrArg (Option.map fun y : Byte => y >>> (8 - b % 8)) hx).symm

/-- A container of the right size has a byte view, as long as its groups. -/
theorem Container.Sized.exists_unpackBytes {c : Container} (h : c.Sized) :
    ∃ bytes, unpackBytes c.g (bits c.wt) = some bytes ∧ bytes.length = ngroups (bits c.wt) ∧ bytes.length ≤ 4 := by
  obtain ⟨bytes, hbytes⟩ := unpackBytes_isSome_iff.2 h
  obtain ⟨hb, -, hlen, -⟩ := unpackBytes_spec hbytes
  exact ⟨bytes, hbytes, hlen, hlen ▸ ngroups_le_four hb⟩

/-- Without a partial group the bytes are the groups (rule R106). -/
theorem unpackBytes_of_rem_eq_zero {g : List Byte} {b : Nat} (hb : b ≤ 32) (hlen : g.length = ngroups b)
    (hr : rem b = 0) : unpackBytes g b = some g := by
  have hfull : g.length = full b := by simp [hlen, ngroups, hr]
  simp [unpackBytes, hb, hr, hlen, ← hfull]

theorem leNat_lt_two_pow {bytes : List Byte} (h : bytes.length ≤ 4) : leNat bytes < 2 ^ 32 :=
  (leNat_lt bytes).trans_le (Nat.pow_le_pow_right (n := 256) (by decide) h)

/-- The first byte is the low byte of the value, 0 when there is none (rule R96). -/
theorem toNat_headD (bytes : List Byte) : (bytes.headD 0).toNat = leNat bytes % 256 := by
  cases bytes with
  | nil => rfl
  | cons x xs =>
    have hx := x.isLt
    simp only [List.headD_cons, leNat]
    omega

/-- A sequence whose byte `k` is digit `k` of `n` spells `n`, up to its own length. -/
theorem leNat_of_digits {bytes : List Byte} {n : Nat}
    (h : ∀ k x, bytes[k]? = some x → x.toNat = n / 2 ^ (8 * k) % 2 ^ 8) : leNat bytes = n % 2 ^ (8 * bytes.length) := by
  induction bytes generalizing n with
  | nil => simp [leNat, Nat.mod_one]
  | cons y ys ih =>
    have hhead : y.toNat = n % 2 ^ 8 := by simpa using h 0 y rfl
    have htail : leNat ys = n / 2 ^ 8 % 2 ^ (8 * ys.length) := by
      refine ih fun k x hx => ?_
      rw [Nat.div_div_eq_div_mul, ← Nat.pow_add, Nat.add_comm, ← Nat.mul_succ]
      exact h (k + 1) x hx
    rw [leNat, hhead, htail, List.length_cons, Nat.mul_succ, Nat.add_comm (8 * _), Nat.pow_add, Nat.mod_mul]

/-! ### Extraction after construction (rule R98) -/

/-- The partial byte is the value's `r` bits from bit `k` on. -/
theorem toNat_shr8_shl8_extract (v : Word) (k : Nat) {r : Nat} (hr : r ≤ 8) :
    (shr8 (shl8 (v.extractLsb' k 8) (8 - r)) (8 - r)).toNat = v.toNat / 2 ^ k % 2 ^ r := by
  rw [shr8_shl8 _ hr, BitVec.extractLsb'_toNat, Nat.shiftRight_eq_div_pow, Nat.mod_mod_of_dvd _ (Nat.pow_dvd_pow 2 hr)]

/-- The bytes of packed groups, element by element. -/
theorem exists_unpackBytes_of_pack {v : Word} {b : Nat} {g : List Byte} (h : pack v b = some g) :
    ∃ bytes, unpackBytes g b = some bytes ∧ bytes.length = ngroups b ∧
      (∀ k < full b, bytes[k]? = some (v.extractLsb' (8 * k) 8)) ∧
      (rem b ≠ 0 → ∃ x, bytes[full b]? = some x ∧ x.toNat = v.toNat / 2 ^ (8 * full b) % 2 ^ rem b) := by
  obtain ⟨hb, hlen, hgroup, hpartial⟩ := pack_spec h
  obtain ⟨bytes, hbytes⟩ := unpackBytes_isSome_iff.2 ⟨hb, hlen⟩
  obtain ⟨-, -, hlen', hfull, hlast⟩ := unpackBytes_spec hbytes
  refine ⟨bytes, hbytes, hlen', fun k hk => (hfull k hk).trans (hgroup k hk), fun hr => ?_⟩
  obtain ⟨x, hx, hbyte⟩ := hlast hr
  obtain rfl := Option.some.inj ((hpartial hr).symm.trans hx)
  exact ⟨_, hbyte, toNat_shr8_shl8_extract v _ (full_rem b).2.le⟩

/-- Byte `k` of packed groups is digit `k` of `v mod 2^b`: a full byte lies below bit `b`, and the partial byte is what is left
of the value above the full ones. -/
theorem toNat_unpackBytes_of_pack {v : Word} {b k : Nat} {g bytes : List Byte} {x : Byte} (h : pack v b = some g)
    (hbytes : unpackBytes g b = some bytes) (hx : bytes[k]? = some x) :
    x.toNat = v.toNat % 2 ^ b / 2 ^ (8 * k) % 2 ^ 8 := by
  obtain ⟨_, hu, hlen, hfull, hlast⟩ := exists_unpackBytes_of_pack h
  obtain rfl := Option.some.inj (hbytes.symm.trans hu)
  obtain ⟨hsum, hrem⟩ := full_rem b
  by_cases hk : k < full b
  · obtain rfl := Option.some.inj ((hfull k hk).symm.trans hx)
    rw [mod_two_pow_div_mod _ (by omega), BitVec.extractLsb'_toNat, Nat.shiftRight_eq_div_pow]
  · have hlt : k < ngroups b := hlen ▸ (List.getElem?_eq_some_iff.1 hx).1
    have hr : rem b ≠ 0 := fun h0 => hk (by simpa [ngroups, h0] using hlt)
    have hn : ngroups b = full b + 1 := by simp [ngroups, hr]
    obtain rfl : k = full b := by omega
    obtain ⟨y, hy, hvalue⟩ := hlast hr
    obtain rfl := Option.some.inj (hy.symm.trans hx)
    have hdiv : v.toNat % 2 ^ b / 2 ^ (8 * full b) = v.toNat / 2 ^ (8 * full b) % 2 ^ rem b := by
      rw [show 2 ^ b = 2 ^ (8 * full b) * 2 ^ rem b by rw [← Nat.pow_add, ← hsum], Nat.mod_mul_right_div_self]
    rw [hdiv, ← hvalue, Nat.mod_eq_of_lt y.isLt]

/-- The bytes of packed groups spell `v mod 2^b`. -/
theorem leNat_unpackBytes_of_pack {v : Word} {b : Nat} {g bytes : List Byte} (h : pack v b = some g)
    (hbytes : unpackBytes g b = some bytes) : leNat bytes = v.toNat % 2 ^ b := by
  obtain ⟨-, -, hlen, -⟩ := unpackBytes_spec hbytes
  have hb : b ≤ 8 * bytes.length := by
    rw [hlen, ngroups_eq_ceil]
    omega
  rw [leNat_of_digits fun _ _ => toNat_unpackBytes_of_pack h hbytes,
    Nat.mod_eq_of_lt ((Nat.mod_lt _ (Nat.two_pow_pos b)).trans_le (Nat.pow_le_pow_right (by decide) hb))]

/-- Settles O39: the bytes element by element, and the number they spell, which is also what `pad4` holds. -/
theorem unpackOfPackClosedForm : Obligations.UnpackOfPackClosedForm := by
  intro v b g h
  obtain ⟨bytes, hbytes, hlen, hfull, hlast⟩ := exists_unpackBytes_of_pack h
  obtain ⟨hb, -⟩ := pack_spec h
  have hvalue := leNat_unpackBytes_of_pack h hbytes
  exact ⟨bytes, hbytes, hfull, hlast, hvalue ▸ pad4_eq (hlen ▸ ngroups_le_four hb), hvalue⟩

/-! ### The answers of the extraction commands -/

/-- A response with nothing in it but a number that fits `data` is that number. -/
theorem respond_ofNat {n : Nat} (h : n < 2 ^ 32) : respond 0 false 0 0 (BitVec.ofNat 32 n) = BitVec.ofNat 48 n := by
  rw [respond_data]
  apply BitVec.eq_of_toNat_eq
  rw [BitVec.toNat_setWidth, BitVec.toNat_ofNat, BitVec.toNat_ofNat, Nat.mod_eq_of_lt h]

/-- A response with nothing in it but a byte is that byte, zero-extended. -/
theorem respond_byte (x : Byte) : respond 0 false 0 0 (x.setWidth 32) = x.setWidth 48 := by
  rw [respond_data, BitVec.setWidth_setWidth (by decide)]

/-- Settles O35: the row of TOBYTES, its fault, and its answer from the byte view. -/
theorem tobytesAnswersTheBytes : Obligations.TobytesAnswersTheBytes := by
  refine ⟨fun w hcode => decode_by_unused (o := .tobytes) hcode (cd_tag_imm_zero_iff w),
    fun cs s => ⟨extract_empty, fun c hc hsized => ?_⟩⟩
  obtain ⟨bytes, hbytes, -⟩ := hsized.exists_unpackBytes
  exact ⟨bytes, byteView_of_unpackBytes hbytes, extract_some hc (tobytesResponse_eq hbytes)⟩

/-- Settles O36: the row of TOBYTE, its fault, and its answer, the first byte of the view or 0. -/
theorem tobyteAnswersTheFirstByte : Obligations.TobyteAnswersTheFirstByte := by
  refine ⟨fun w hcode => decode_by_unused (o := .tobyte) hcode (cd_tag_imm_zero_iff w),
    fun cs s => ⟨extract_empty, fun c hc hsized => ?_⟩⟩
  obtain ⟨bytes, hbytes, -⟩ := hsized.exists_unpackBytes
  refine ⟨bytes, byteView_of_unpackBytes hbytes, (extract_some hc (tobyteResponse_eq hbytes)).trans ?_⟩
  rw [respond_byte]
  cases bytes <;> rfl

/-- Settles O37: the row of TOU32, its fault, and its answer, which fits `data`. -/
theorem tou32AnswersTheValue : Obligations.Tou32AnswersTheValue := by
  refine ⟨fun w hcode => decode_by_unused (o := .tou32) hcode (cd_tag_imm_zero_iff w),
    fun cs s => ⟨extract_empty, fun c hc hsized => ?_⟩⟩
  obtain ⟨bytes, hbytes, -, hlen⟩ := hsized.exists_unpackBytes
  refine ⟨bytes, byteView_of_unpackBytes hbytes, ?_⟩
  rw [← respond_ofNat (leNat_lt_two_pow hlen)]
  exact extract_some hc (tou32Response_eq hbytes)

/-- Settles O38: the row of RDGRP, its fault, and its answer from the groups as they are stored. -/
theorem rdgrpAnswersTheGroupsAndTheTag : Obligations.RdgrpAnswersTheGroupsAndTheTag :=
  ⟨fun w hcode => decode_by_unused (o := .rdgrp) hcode (cd_tag_imm_zero_iff w),
    fun _ _ => ⟨extract_empty, fun _ hc hlen => extract_some hc (rdgrpResponse_eq hlen)⟩⟩

/-- A number of groups fits the `len` field. -/
theorem toNat_ofNat_ngroups {b : Nat} (hb : b ≤ 32) : (BitVec.ofNat 3 (ngroups b)).toNat = ngroups b := by
  rw [BitVec.toNat_ofNat]
  exact Nat.mod_eq_of_lt ((ngroups_le_four hb).trans_lt (by decide))

/-- Settles O43: TOBYTES counts the bytes and RDGRP the groups, and both are `ngroups` in number. -/
theorem lengthIsTheMinimalFootprint : Obligations.LengthIsTheMinimalFootprint := by
  intro cs s c hc hsized
  obtain ⟨bytes, hbytes, hlen, -⟩ := hsized.exists_unpackBytes
  obtain ⟨hb, hgroups⟩ := hsized
  have hfour : c.g.length ≤ 4 := hgroups ▸ ngroups_le_four hb
  refine ⟨_, _, extract_some hc (tobytesResponse_eq hbytes), extract_some hc (rdgrpResponse_eq hfour), ?_, ?_⟩
  · rw [respLen_respond, hlen, toNat_ofNat_ngroups hb, ngroups_eq_ceil]
  · rw [respLen_respond, respLen_respond, hlen, hgroups]

/-- What extraction answered from a slot that holds a container. -/
theorem extract_cases_of_some {s t : State} {cs : SlotId} {f : Container → Option Word48} {c : Container}
    (hc : s.slot cs = some c) (h : extract s cs f = .next t) : ∃ r, f c = some r ∧ t = s.answer r := by
  obtain ⟨hn, -⟩ | ⟨_, r, hd, hr, rfl⟩ := extract_cases h
  · simp [hc] at hn
  · obtain rfl := Option.some.inj (hc.symm.trans hd)
    exact ⟨r, hr, rfl⟩

/-- Settles O44: on an empty slot both raise the same fault, and on a container both answer the value of one byte view. -/
theorem tobytesAndTou32GiveTheSameData : Obligations.TobytesAndTou32GiveTheSameData := by
  intro cs s t u ht hu
  cases hc : s.slot cs with
  | none =>
    obtain rfl := Host.Outcome.next.inj ((exec_source_empty (i := .tobytes cs) rfl hc).symm.trans ht)
    obtain rfl := Host.Outcome.next.inj ((exec_source_empty (i := .tou32 cs) rfl hc).symm.trans hu)
    exact ⟨_, _, rfl, rfl, rfl, rfl, rfl, rfl, rfl, respLen_respond .., fun c hd => nomatch hd⟩
  | some c =>
    obtain ⟨r, hr, rfl⟩ := extract_cases_of_some hc ht
    obtain ⟨r', hr', rfl⟩ := extract_cases_of_some hc hu
    obtain ⟨bytes, hbytes, rfl⟩ := tobytesResponse_cases hr
    obtain ⟨_, hbytes', rfl⟩ := tou32Response_cases hr'
    obtain rfl := Option.some.inj (hbytes.symm.trans hbytes')
    obtain ⟨hb, -, hlen, -⟩ := unpackBytes_spec hbytes
    refine ⟨_, _, rfl, rfl, by simp, by simp, by simp, by simp, by simp, by simp, fun d hd => ?_⟩
    cases hd
    rw [respLen_respond, hlen, toNat_ofNat_ngroups hb]

/-! ### The answers after PACK -/

/-- PACK with a good tag of a count of at most 32 leaves packed groups whose bytes spell `v mod 2^b`. -/
theorem exists_bytes_of_exec_pack {t : Tag} (hok : tagOk t = true) (hb : bits t ≤ 32) (cd : SlotId) (v : Word) (s : State) :
    ∃ g u bytes, exec (.pack cd t v) s = .next u ∧ u.slot cd = some ⟨t, g⟩ ∧ g.length = ngroups (bits t) ∧
      unpackBytes g (bits t) = some bytes ∧ leNat bytes = v.toNat % 2 ^ bits t := by
  obtain ⟨g, hg⟩ := pack_isSome_iff (v := v).2 hb
  obtain ⟨bytes, hbytes, -⟩ := exists_unpackBytes_of_pack hg
  obtain ⟨-, hlen, -⟩ := pack_spec hg
  exact ⟨g, _, bytes, execPack_ok hok hg, by simp, hlen, hbytes, leNat_unpackBytes_of_pack hg hbytes⟩

/-- TOU32 on a container whose bytes spell `v mod 2^b`. -/
theorem exec_tou32_of_leNat {u : State} {cs : SlotId} {c : Container} {bytes : List Byte} {v : Word} {b : Nat}
    (hc : u.slot cs = some c) (hbytes : unpackBytes c.g (bits c.wt) = some bytes) (hvalue : leNat bytes = v.toNat % 2 ^ b) :
    exec (.tou32 cs) u = .next { u with responses := u.responses ++ [BitVec.ofNat 48 (v.toNat % 2 ^ b)] } := by
  rw [← hvalue, ← respond_ofNat (hvalue ▸ (Nat.mod_le _ _).trans_lt v.isLt)]
  exact extract_some hc (tou32Response_eq hbytes)

/-- Settles O40: TOU32 answers the number the packed bytes spell, which is `v` when `v` is below `2^b`. -/
theorem tou32AfterPackIsTheValueModTwoToTheWidth : Obligations.Tou32AfterPackIsTheValueModTwoToTheWidth := by
  intro cd t v s hok hb
  obtain ⟨g, u, bytes, hpack, hslot, -, hbytes, hvalue⟩ := exists_bytes_of_exec_pack hok hb cd v s
  have hanswer := exec_tou32_of_leNat hslot hbytes hvalue
  refine ⟨u, hpack, hanswer, fun hlt => ?_⟩
  rwa [Nat.mod_eq_of_lt hlt, BitVec.ofNat_toNat] at hanswer

/-- Settles O42: TOBYTE answers the first of the packed bytes, the low byte of the number they spell. -/
theorem tobyteAfterPackIsTheLowByteOfTheValue : Obligations.TobyteAfterPackIsTheLowByteOfTheValue := by
  intro cd t v s hok hb
  obtain ⟨g, u, bytes, hpack, hslot, -, hbytes, hvalue⟩ := exists_bytes_of_exec_pack hok hb cd v s
  refine ⟨u, hpack, ?_⟩
  rw [← hvalue, ← toNat_headD, BitVec.ofNat_toNat, ← respond_byte]
  exact extract_some hslot (tobyteResponse_eq hbytes)

/-- Each of the byte-aligned widths is in range and has no partial group, and its mask is `2^b - 1` (rule R106). -/
theorem byteAligned_mask : ∀ p ∈ [(8, (0xFF : Word)), (16, 0xFFFF), (24, 0xFFFFFF), (32, 0xFFFFFFFF)],
    p.1 ≤ 32 ∧ rem p.1 = 0 ∧ p.2.toNat = 2 ^ p.1 - 1 := by decide

/-- Settles O41: without a partial group the bytes are the groups, and masking with `2^b - 1` is reducing mod `2^b`. -/
theorem byteAlignedWidthsMaskTheValue : Obligations.ByteAlignedWidthsMaskTheValue := by
  intro cd t v s hok mask hmem
  obtain ⟨hb, hr, hmask⟩ := byteAligned_mask _ hmem
  obtain ⟨g, u, bytes, hpack, hslot, hlen, hbytes, hvalue⟩ := exists_bytes_of_exec_pack hok hb cd v s
  have hmod : (v &&& mask).setWidth 48 = BitVec.ofNat 48 (v.toNat % 2 ^ bits t) := by
    rw [← BitVec.ofNat_toNat, BitVec.toNat_and, hmask, Nat.and_two_pow_sub_one_eq_mod]
  refine ⟨g, u, hpack, hslot, unpackBytes_of_rem_eq_zero hb hlen hr, ?_⟩
  rw [hmod]
  exact exec_tou32_of_leNat hslot hbytes hvalue

end Sys2Proof.Machine
end

/-! # Proofs of the statements about faults (rules R115 to R130)

On a word of a defined opcode each fault condition of rules R117 to R120 is a condition on the command the decoder reads: a set
unused field, an ill-formed tag operand, an empty source slot, a PACK above 32 bits. What `exec` does under each of them, and
that it answers status 0 under none, gives the status of every response. A fault leaves the slots as they were, and so the next
step does what it would have done. -/

section
namespace Sys2Proof.Machine

/-! ### The block answers and idles -/

/-- Settles O6: every slot is in the domain of the extraction commands, and nothing else could stop. -/
theorem everyStepAnswersANextState : Obligations.EveryStepAnswersANextState := fun _ => exists_step_next

theorem step_of_no_command {s : State} (h : s.commands = []) : step s = .next s := by
  simp [step, State.takeCommand_nil h]

/-- Settles O12: there is no word to take. -/
theorem idleBlockHoldsItsState : Obligations.IdleBlockHoldsItsState := fun _ => step_of_no_command

/-! ### The illegal words -/

/-- On a word of a defined opcode, rule R48's list says that a field the command does not use is not zero. -/
theorem illegalWord_iff_of_code {w : Word48} {o : Op} (hcode : opField w = o.code) :
    IllegalWord w ↔ ¬o.UnusedZero w := by
  have hop : w.extractLsb' 44 4 = o.code := hcode
  unfold IllegalWord
  rw [hop]
  cases o with
  | pack => simp [Op.code, Op.UnusedZero, csField]
  | tobytes | tobyte | tou32 | rdgrp =>
    rw [Op.UnusedZero, ← cd_tag_imm_zero_iff, not_and_or]
    simp [Op.code]
  | clone =>
    rw [Op.UnusedZero, ← tag_imm_zero_iff]
    simp [Op.code]
  | wbits | dync =>
    rw [Op.UnusedZero, ← cd_cs_imm_zero_iff, not_and_or]
    simp [Op.code]
  | dynq =>
    rw [Op.UnusedZero, ← cd_cs_tag_zero_iff]
    simp [Op.code]

/-- The decoder refuses exactly the words of rule R48's list. -/
theorem exists_decode_illegal_iff (w : Word48) : (∃ why, decode w = .illegal why) ↔ IllegalWord w := by
  obtain ⟨hnone, hd⟩ | ⟨o, hcode, hunused, hd⟩ | ⟨o, hcode, hunused, hd⟩ := decode_cases w
  · exact iff_of_true ⟨_, hd⟩ (.inl ((Op.ofCode_eq_none_iff _).1 hnone))
  · refine iff_of_false (fun ⟨why, hwhy⟩ => ?_) (mt (illegalWord_iff_of_code hcode).1 (not_not.2 hunused))
    simp [hd] at hwhy
  · exact iff_of_true ⟨_, hd⟩ ((illegalWord_iff_of_code hcode).2 hunused)

/-- Settles O11: reserved opcodes and set unused fields are what the decoder refuses, and the step raises the fault. -/
theorem illegalWordsRaiseIllegalCmd : Obligations.IllegalWordsRaiseIllegalCmd := by
  refine fun w => ⟨exists_decode_illegal_iff w, fun s rest hc hw => ?_⟩
  obtain ⟨why, hd⟩ := (exists_decode_illegal_iff w).2 hw
  exact step_of_illegal hc hd

/-! ### Reading a slot that holds a container -/

/-- An extraction command whose answers have status 0 answers with status 0 from a slot that holds a container. -/
theorem extract_status_zero {s t : State} {cs : SlotId} {f : Container → Option Word48}
    (hstatus : ∀ {c r}, f c = some r → respStatus r = 0) (hc : s.slot cs ≠ none) (h : extract s cs f = .next t) :
    ∃ r, t.responses = s.responses ++ [r] ∧ respStatus r = 0 := by
  obtain ⟨c, hc⟩ := Option.ne_none_iff_exists'.1 hc
  obtain ⟨r, hr, rfl⟩ := extract_cases_of_some hc h
  exact ⟨r, rfl, hstatus hr⟩

/-- A command raises no fault when the slot it reads holds a container. -/
theorem exec_source_valid {i : Instr} {cs : SlotId} {s t : State} (hi : i.source = some cs) (hc : s.slot cs ≠ none)
    (h : exec i s = .next t) : ∃ r, t.responses = s.responses ++ [r] ∧ respStatus r = 0 := by
  cases i with
  | pack | wbits | dynq | dync => cases hi
  | tobytes =>
    cases hi
    refine extract_status_zero (fun hr => ?_) hc h
    obtain ⟨_, -, rfl⟩ := tobytesResponse_cases hr
    exact respStatus_respond ..
  | tobyte =>
    cases hi
    refine extract_status_zero (fun hr => ?_) hc h
    obtain ⟨_, -, rfl⟩ := tobyteResponse_cases hr
    exact respStatus_respond ..
  | tou32 =>
    cases hi
    refine extract_status_zero (fun hr => ?_) hc h
    obtain ⟨_, -, rfl⟩ := tou32Response_cases hr
    exact respStatus_respond ..
  | rdgrp =>
    cases hi
    refine extract_status_zero (fun hr => ?_) hc h
    obtain ⟨-, rfl⟩ := rdgrpResponse_cases hr
    exact respStatus_respond ..
  | clone =>
    cases hi
    obtain ⟨c, hc⟩ := Option.ne_none_iff_exists'.1 hc
    obtain rfl := Host.Outcome.next.inj ((execClone_some hc).symm.trans h)
    exact ⟨respondOk, by simp, respStatus_respond ..⟩

/-- A slot is valid after a command exactly when it was before or is the destination of a write. -/
theorem Effect.slot_apply_ne_none_iff (e : Effect) (s : State) (j : SlotId) :
    (e.apply s).slot j ≠ none ↔ s.slot j ≠ none ∨ ∃ c, e = .write j c := by
  cases e with
  | fault c => simp [apply]
  | reply r _ => simp [apply]
  | write cd c =>
    by_cases hj : j = cd
    · simp [apply, hj]
    · simp [apply, State.slot_setSlot, hj, Ne.symm hj]

theorem dest_eq_some {i : Instr} {j : SlotId} (h : i.dest = some j) :
    (∃ tag v, i = .pack j tag v) ∨ ∃ cs, i = .clone j cs := by
  cases i with
  | pack cd tag v =>
    cases h
    exact .inl ⟨tag, v, rfl⟩
  | clone cd cs =>
    cases h
    exact .inr ⟨cs, rfl⟩
  | tobytes | tobyte | tou32 | rdgrp | wbits | dynq | dync => cases h

/-- Settles O48: reading faults on an empty slot and not on a valid one, and an effect never empties a slot and fills only the
destination of PACK or CLONE. -/
theorem emptySlotFaultsUntilTheSlotIsWritten : Obligations.EmptySlotFaultsUntilTheSlotIsWritten := by
  refine ⟨fun _ _ _ => exec_source_empty, fun _ _ _ _ => exec_source_valid, fun i s t j h => ?_⟩
  obtain ⟨e, he⟩ := exists_hasEffect h
  obtain rfl := he.eq_apply h
  refine ⟨fun hs => (e.slot_apply_ne_none_iff s j).2 (.inl hs), fun hs ht => ?_⟩
  obtain hne | ⟨c, rfl⟩ := (e.slot_apply_ne_none_iff s j).1 ht
  · exact absurd hs hne
  · exact dest_eq_some he.1

/-! ### A fault and the step after it -/

/-- The response to a fault is zero but for its status (rule R116 (c)). -/
theorem fault_response_rest (c : Cause) : (respond c.code false 0 0 0).extractLsb' 0 45 = 0 := by cases c <;> decide

/-- An effect whose status is not 0 is a fault. -/
theorem Effect.exists_eq_fault {e : Effect} (h : respStatus e.response ≠ 0) : ∃ c, e = .fault c := by
  cases e with
  | fault c => exact ⟨c, rfl⟩
  | reply r ok => exact absurd ok h
  | write cd c => exact absurd (respStatus_respond ..) h

/-- A step from states with the same slots and the same commands presented does the same to both and answers the same. -/
theorem step_congr {s s' u : State} (hcommands : s.commands = s'.commands) (hslots : ∀ j, s.slot j = s'.slot j)
    (h : step s = .next u) :
    ∃ u' answers, step s' = .next u' ∧ (∀ j, u'.slot j = u.slot j) ∧ u'.commands = u.commands ∧
      u.responses = s.responses ++ answers ∧ u'.responses = s'.responses ++ answers := by
  cases hc : s.commands with
  | nil =>
    obtain rfl := Host.Outcome.next.inj ((step_of_no_command hc).symm.trans h)
    exact ⟨s', [], step_of_no_command (hcommands ▸ hc), fun j => (hslots j).symm, hcommands.symm, by simp, by simp⟩
  | cons w rest =>
    obtain ⟨e, he⟩ := exists_step_effect hc h
    obtain rfl := Host.Outcome.next.inj ((he s rest hc fun _ => rfl).symm.trans h)
    exact ⟨_, [e.response], he s' rest (hcommands ▸ hc) hslots, e.slot_apply_congr fun j => by simp [hslots], by simp,
      e.responses_apply _, e.responses_apply _⟩

/-- Settles O49: the effect is a fault, which leaves every slot as it was, and so the next step does what it would have done. -/
theorem faultWritesNoSlotAndSetsTheFlag : Obligations.FaultWritesNoSlotAndSetsTheFlag := by
  intro s t w rest r hc h hresponses hr
  obtain ⟨e, he⟩ := exists_step_effect hc h
  obtain rfl := Host.Outcome.next.inj ((he s rest hc fun _ => rfl).symm.trans h)
  obtain rfl : e.response = r := by simpa using hresponses
  obtain ⟨c, rfl⟩ := Effect.exists_eq_fault hr
  have hslots (j : SlotId) : (({ s with commands := rest } : State).raise c).slot j = s.slot j := by simp
  refine ⟨hslots, rfl, fault_response_rest c, rfl, fun u hu => ?_⟩
  exact step_congr (s := { s with commands := rest }) rfl (fun j => (State.slot_raise _ c j).symm) hu

/-! ### What is not a fault -/

/-- Settles O51: an absent width is an answer, PACK up to 32 bits writes, raw tags name a width, and CLONE onto itself writes what
the slot holds. -/
theorem whatIsNotAFault : Obligations.WhatIsNotAFault := by
  refine ⟨fun n s => ⟨_, rfl, respStatus_dynamicResponse _, fun hn => ?_⟩,
    fun t s hok => ⟨_, execDync_ok hok, respStatus_dynamicResponse _, fun hn => ?_⟩, fun cd t v s hok hb => ?_, tagOk_raw,
    fun c s hc => ?_⟩
  · rw [fromQuantity_absent (by omega)]
    exact respPresent_respond ..
  · rw [fromCapability, fromQuantity_absent (by omega)]
    exact respPresent_respond ..
  · obtain ⟨u, hu, hfseen, hresponses, -⟩ := packTruncatesSilently cd t v s hok hb
    exact ⟨u, hu, hfseen, hresponses⟩
  · obtain ⟨d, hd⟩ := Option.ne_none_iff_exists'.1 hc
    have hclone := execClone_some (cd := c) hd
    rw [State.setSlot_eq_self s hd] at hclone
    exact hclone

/-! ### The fault conditions of a word and of the command read from it -/

/-- The tags that name no width, as rule R118 lists them. -/
theorem tagOk_eq_false_iff (t : Tag) : tagOk t = false ↔
    (t.cls.toBits.toNat ≤ 1 ∧ (t.q.toNat = 0 ∨ 25 ≤ t.q.toNat)) ∨
      (t.cls.toBits.toNat = 2 ∧ t.q.toNat ∉ [8, 16, 32]) := by
  obtain ⟨cls, q⟩ := t
  rw [← Bool.not_eq_true]
  cases cls with
  | marker =>
    have hcls : WidthClass.marker.toBits.toNat = 0 := rfl
    simp only [tagOk_marker_iff, hcls]
    omega
  | dynamic =>
    have hcls : WidthClass.dynamic.toBits.toNat = 1 := rfl
    simp only [tagOk_dynamic_iff, hcls]
    omega
  | native => simp [tagOk_native_iff, WidthClass.toBits]
  | raw => simp [tagOk_raw, WidthClass.toBits]

theorem badTagWord_iff (w : Word48) :
    BadTagWord w ↔ (opField w).toNat ∈ [0x1, 0x8, 0xA] ∧ tagOk (tagField w) = false := by
  have hcls : (tagField w).cls.toBits = clsField w := WidthClass.toBits_ofBits _
  rw [tagOk_eq_false_iff, hcls]
  rfl

theorem cls_tagField_eq_raw_iff (w : Word48) : (tagField w).cls = .raw ↔ (clsField w).toNat = 3 := by
  have key : ∀ b : BitVec 2, WidthClass.ofBits b = .raw ↔ b.toNat = 3 := by decide
  exact key (clsField w)

theorem widthOverflowWord_iff (w : Word48) :
    WidthOverflowWord w ↔ (opField w).toNat = 0x1 ∧ (tagField w).cls = .raw ∧ 32 < bits (tagField w) := by
  rw [cls_tagField_eq_raw_iff]
  rfl

section
variable {w : Word48} {o : Op} (hcode : opField w = o.code)
include hcode

/-- A word meets rule R118 exactly when the command read from it has an ill-formed tag operand. -/
theorem badTagWord_iff_wellFormed : BadTagWord w ↔ (readOperands o w).wellFormed = false := by
  rw [badTagWord_iff, hcode]
  cases o <;> simp [Op.code, readOperands, Instr.wellFormed, Instr.tagOperand]

/-- A word meets rule R119 exactly when the command read from it reads an empty slot. -/
theorem emptySlotWord_iff_source (s : State) :
    EmptySlotWord w s ↔ ∃ cs, (readOperands o w).source = some cs ∧ s.slot cs = none := by
  have hop : w.extractLsb' 44 4 = o.code := hcode
  unfold EmptySlotWord
  rw [hop]
  cases o <;> simp [Op.code, readOperands, Instr.source, csField]

/-- A word meets rule R120 exactly when the command read from it is a PACK with a raw tag of a count above 32. -/
theorem widthOverflowWord_iff_pack :
    WidthOverflowWord w ↔ ∃ cd t v, readOperands o w = .pack cd t v ∧ t.cls = .raw ∧ 32 < bits t := by
  rw [widthOverflowWord_iff, hcode]
  cases o <;> simp [Op.code, readOperands]

end

/-- A command with an ill-formed tag operand faults BAD_TAG (rule R118). -/
theorem exec_not_wellFormed {i : Instr} (h : i.wellFormed = false) (s : State) : exec i s = .next (s.raise .badTag) := by
  cases i with
  | pack => exact execPack_bad h
  | wbits => exact execWbits_bad h
  | dync => exact execDync_bad h
  | tobytes | tobyte | tou32 | rdgrp | clone | dynq => cases h

/-- A command that reads no slot answers with status 0 when its tag is well formed and, for PACK, of at most 32 bits. -/
theorem exec_of_no_source {i : Instr} {s t : State} (hi : i.source = none) (hwf : i.wellFormed = true)
    (hwidth : ∀ cd tag v, i = .pack cd tag v → bits tag ≤ 32) (h : exec i s = .next t) :
    ∃ r, t.responses = s.responses ++ [r] ∧ respStatus r = 0 := by
  cases i with
  | tobytes | tobyte | tou32 | rdgrp | clone => cases hi
  | pack cd tag v =>
    obtain ⟨g, hg⟩ := pack_isSome_iff (v := v).2 (hwidth cd tag v rfl)
    obtain rfl := Host.Outcome.next.inj ((execPack_ok hwf hg).symm.trans h)
    exact ⟨respondOk, by simp, respStatus_respond ..⟩
  | wbits tag =>
    obtain rfl := Host.Outcome.next.inj ((execWbits_ok hwf).symm.trans h)
    exact ⟨_, rfl, respStatus_respond ..⟩
  | dynq n =>
    cases h
    exact ⟨_, rfl, respStatus_dynamicResponse _⟩
  | dync tag =>
    obtain rfl := Host.Outcome.next.inj ((execDync_ok hwf).symm.trans h)
    exact ⟨_, rfl, respStatus_dynamicResponse _⟩

/-! ### The status of a response -/

/-- The outcome is a next state with one more response, of the given status and zero besides if that is a fault's. -/
def AnswersStatus (x : Host.Outcome State Fault Refusal) (s : State) (status : BitVec 3) : Prop :=
  ∃ t r, x = .next t ∧ t.responses = s.responses ++ [r] ∧ respStatus r = status ∧
    (respStatus r ≠ 0 → r.extractLsb' 0 45 = 0)

theorem answersStatus_raise {x : Host.Outcome State Fault Refusal} {s : State} {c : Cause} (h : x = .next (s.raise c)) :
    AnswersStatus x s c.code :=
  ⟨_, _, h, s.responses_raise c, respStatus_respond .., fun _ => fault_response_rest c⟩

theorem answersStatus_zero {x : Host.Outcome State Fault Refusal} {s t : State} (h : x = .next t)
    (hr : ∃ r, t.responses = s.responses ++ [r] ∧ respStatus r = 0) : AnswersStatus x s 0 := by
  obtain ⟨r, hresponses, hzero⟩ := hr
  exact ⟨t, r, h, hresponses, hzero, fun hne => absurd hzero hne⟩

/-- The command read from a legal word answers the first of rules R118 to R120's conditions that holds, 0 when none does. -/
theorem exec_answersStatus {w : Word48} {o : Op} {s : State} (hcode : opField w = o.code) (hunused : o.UnusedZero w)
    (hs : s.Inv) : AnswersStatus (exec (readOperands o w) s) s (faultCode w s) := by
  have hlegal : ¬IllegalWord w := mt (illegalWord_iff_of_code hcode).1 (not_not.2 hunused)
  rw [faultCode, if_neg hlegal]
  split_ifs with hbad hempty hover
  · exact answersStatus_raise (c := .badTag) (exec_not_wellFormed ((badTagWord_iff_wellFormed hcode).1 hbad) s)
  · obtain ⟨cs, hsource, hslot⟩ := (emptySlotWord_iff_source hcode s).1 hempty
    exact answersStatus_raise (c := .emptySlot) (exec_source_empty hsource hslot)
  · obtain ⟨cd, t, v, hi, hraw, hb⟩ := (widthOverflowWord_iff_pack hcode).1 hover
    rw [hi]
    exact answersStatus_raise (c := .widthOverflow) (execPack_overflow (tagOk_of_cls_eq_raw hraw) hb)
  · obtain ⟨t, ht⟩ := exists_exec_next hs (readOperands o w)
    have hwf : (readOperands o w).wellFormed = true := by
      simpa using mt (badTagWord_iff_wellFormed hcode).2 hbad
    refine answersStatus_zero ht ?_
    cases hsource : (readOperands o w).source with
    | some cs =>
      exact exec_source_valid hsource (fun hn => hempty ((emptySlotWord_iff_source hcode s).2 ⟨cs, hsource, hn⟩)) ht
    | none =>
      refine exec_of_no_source hsource hwf (fun cd tag v hi => Nat.not_lt.1 fun hb => ?_) ht
      have hok : tagOk tag = true := by simpa [hi, Instr.wellFormed, Instr.tagOperand] using hwf
      have hraw : tag.cls = .raw := cls_eq_raw_of_count hok (by omega) (by omega)
      exact hover ((widthOverflowWord_iff_pack hcode).2 ⟨cd, tag, v, hi, hraw, hb⟩)

/-- The fault conditions read the slots only. -/
theorem faultCode_with_commands (w : Word48) (s : State) (ws : List Word48) :
    faultCode w { s with commands := ws } = faultCode w s := by
  simp only [faultCode, EmptySlotWord, State.slot_with_commands]

/-- Settles O50: an illegal word raises ILLEGAL_CMD, and a legal one is executed as the command of its row. -/
theorem statusIsTheFirstFaultConditionThatHolds : Obligations.StatusIsTheFirstFaultConditionThatHolds := by
  intro s w rest hs hc
  by_cases hw : IllegalWord w
  · obtain ⟨why, hd⟩ := (exists_decode_illegal_iff w).2 hw
    rw [faultCode, if_pos hw]
    exact answersStatus_raise (s := { s with commands := rest }) (c := .illegalCmd) (step_of_illegal hc hd)
  · obtain ⟨-, hd⟩ | ⟨o, hcode, hunused, hd⟩ | ⟨o, -, -, hd⟩ := decode_cases w
    · exact absurd ((exists_decode_illegal_iff w).1 ⟨_, hd⟩) hw
    · rw [step_of_command hc hd, ← faultCode_with_commands w s rest]
      exact exec_answersStatus hcode hunused (hs.of_slots_eq (s.slot_with_commands rest))
    · exact absurd ((exists_decode_illegal_iff w).1 ⟨_, hd⟩) hw

end Sys2Proof.Machine
end

/-! # Proofs of the statements about the reset between two commands (rules R135, R136)

The host's reset leaves the slots as at reset, so the invariant of rule R25 holds after it whatever held before, and a step from a
state with the invariant answers. -/

section
namespace Sys2Proof.Machine

@[simp] theorem State.commands_hostReset (s : State) : s.hostReset.commands = s.commands := rfl
@[simp] theorem State.responses_hostReset (s : State) : s.hostReset.responses = s.responses := rfl

/-- The host's reset establishes the invariant, and needs it of no state before. -/
theorem inv_hostReset (s : State) : s.hostReset.Inv :=
  inv_reset.of_slots_eq fun j => (s.slot_hostReset j).trans (State.slot_reset j).symm

/-- Settles O2: the reset's effect field by field, and the invariant it establishes, from which every step answers. -/
theorem hostResetEmptiesSlotsAndClearsFlag : Obligations.HostResetEmptiesSlotsAndClearsFlag := fun s =>
  ⟨s.slot_hostReset, s.fseen_hostReset, s.commands_hostReset, s.responses_hostReset, exists_step_next (inv_hostReset s)⟩

end Sys2Proof.Machine
end

/-! # Proof of the statement about the worked encodings (30_encoding.md section 9)

Each legal word is the encoding of the command it stands for, so it decodes to it by the round trip of rule R52. The three illegal
words are refused for the reserved opcode and for the bit set in an unused field (rules R46, R48). -/

section
namespace Sys2Proof

/-- The round trip of rule R52, for a word known to be a command's encoding. -/
theorem decode_of_encode {w : Word48} {i : Instr} (h : encode i = w) : decode w = .command i :=
  h ▸ decodeOfEncodeIsTheCommand i

/-- A word whose opcode has no row is refused with that opcode. -/
theorem decode_of_reservedOpcode {w : Word48} (h : Op.ofCode (opField w) = none) :
    decode w = .illegal (.reservedOpcode (opField w)) := by
  rw [decode, h]

/-- Settles O18: the nine legal words are encodings, opcode F has no row, and in the last two words a slot field the command does
not use is set. -/
theorem workedEncodingsDecode : Obligations.WorkedEncodingsDecode := by
  have hpack : ¬Op.UnusedZero .pack 0x110300000005 := fun hcs : csField 0x110300000005 = 0 => absurd hcs (by decide)
  have htou32 : ¬Op.UnusedZero .tou32 0x440000000000 := fun ⟨hcd, _, _⟩ => absurd hcd (by decide)
  exact ⟨decode_of_encode (by decide), decode_of_encode (by decide), decode_of_encode (by decide), decode_of_encode (by decide),
    decode_of_encode (by decide), decode_of_encode (by decide), decode_of_encode (by decide), decode_of_encode (by decide),
    decode_of_encode (by decide), decode_of_reservedOpcode (by decide), decode_of_unused_set (by decide) hpack,
    decode_of_unused_set (by decide) htou32⟩

end Sys2Proof
end
